-- ==== Sys2Proof/Word.lean ====
section
/-! DEFINITION. The byte, the one word of this hardware (00_scope.md R13: every byte is an unsigned
8-bit value). Integer bit `b` of a byte has weight `2^b`; pixel position `p` is integer bit `7 - p` (R12). -/

namespace Sys2Proof

/-- An unsigned 8-bit value (R13): an opcode byte, a run byte, a raw byte, a frame buffer byte. -/
abbrev Byte := BitVec 8

end Sys2Proof
end

