-- ==== Sys2Proof/Syntax.lean ====
section
/-! DEFINITION. The instructions: the bytes of the encoded stream by what they mean (00_scope.md R15,
30_encoding.md R77). One constructor for each mnemonic of the opcode table; the table's six `UNK` rows are blocks of
one instruction (40_dispatcher.md R93, R97; log 9). -/

namespace Sys2Proof

inductive Instr where
  /-- `BLANK`, opcode `0x00`: no change (40 R92). -/
  | blank
  /-- `RAW`, opcode `0x01`: begin a raw copy (41 R105). -/
  | raw
  /-- `RLE`, opcode `0x02`: begin a run pass, overwrite mode (43 R125). -/
  | rle
  /-- `XRLE`, opcode `0x03`: begin a run pass, XOR mode (44 R135). -/
  | xrle
  /-- `CLR0`, opcode `0x04`: every byte to `0x00` (45 R145). -/
  | clr0
  /-- `CLR1`, opcode `0x05`: every byte to `0xFF` (45 R146). -/
  | clr1
  /-- `UNK`, any opcode byte `0x06` to `0xFF`: a no-op that sets the flag `UNK` (40 R93). -/
  | unk (op : Byte)
  /-- `RUN n, v`: a run byte of an `RLE` frame (43 R127). -/
  | run (n : BitVec 7) (v : Bool)
  /-- `XRUN n, v`: a run byte of an `XRLE` frame (44 R136). -/
  | xrun (n : BitVec 7) (v : Bool)
  /-- `RAWB d`: a payload byte of a `RAW` frame (41 R106). -/
  | rawb (d : Byte)
deriving DecidableEq, Repr

end Sys2Proof
end

