-- ==== Sys2Proof/WellFormed.lean ====
section
/-! DEFINITION. Which terms of Instr stand for an encoding. Field widths are in the types; the one check is that an
`UNK` carries an opcode byte that no other opcode claims (30_encoding.md R77, R78). -/

namespace Sys2Proof

/-- `UNK` is exactly the bytes `0x06` to `0xFF` (40_dispatcher.md R97); every other term is well formed. -/
def Instr.wellFormed : Instr → Bool
  | .blank => true
  | .raw => true
  | .rle => true
  | .xrle => true
  | .clr0 => true
  | .clr1 => true
  | .unk op => decide (6 ≤ op.toNat)
  | .run _ _ => true
  | .xrun _ _ => true
  | .rawb _ => true

end Sys2Proof
end

