-- ==== Sys2Proof/Decode.lean ====
section
/-! DEFINITION. From stream bytes to instructions and back (30_encoding.md). There are three byte formats, and the
place of a byte in the stream, not a bit of it, says which it has (R76); so the decoder takes the context. -/

namespace Sys2Proof

/-- Where a byte stands in the stream (R76): at a frame boundary (format OP), in an `RLE` or an `XRLE` frame
(format RUN), in a `RAW` frame (format RAWB). -/
inductive Context where
  | boundary
  | runOvr
  | runXor
  | rawPayload
deriving DecidableEq, Repr

/-- Why the decoder refuses: there is no byte to read. No byte value is refused in any context (R77, R78, R79). -/
inductive DecodeError where
  | noByte
deriving DecidableEq, Repr

/-- Format OP (R72, 40_dispatcher.md R97): the full 8-bit value decides, there are no don't-care bits. -/
def classify (op : Byte) : Instr :=
  if op = 0x00#8 then .blank
  else if op = 0x01#8 then .raw
  else if op = 0x02#8 then .rle
  else if op = 0x03#8 then .xrle
  else if op = 0x04#8 then .clr0
  else if op = 0x05#8 then .clr1
  else .unk op

/-- Format RUN (R73, R75): the run length, `n = rb[7:1]`. -/
def runLength (rb : Byte) : BitVec 7 := rb.extractLsb' 1 7

/-- Format RUN (R73, R75): the pixel value, `v = rb[0]`. -/
def runValue (rb : Byte) : Bool := rb.getLsbD 0

/-- The instruction a byte is in its context (R76, R77). -/
def decodeByte (c : Context) (b : Byte) : Instr :=
  match c with
  | .boundary => classify b
  | .runOvr => .run (runLength b) (runValue b)
  | .runXor => .xrun (runLength b) (runValue b)
  | .rawPayload => .rawb b

/-- What the decoder answers: an instruction and the bytes left, or why there is none. -/
inductive Decoded where
  | instr (i : Instr) (rest : List Byte)
  | rejected (e : DecodeError)
deriving DecidableEq, Repr

/-- The decoder: the first byte is the instruction, the rest is left. -/
def decode (c : Context) : List Byte → Decoded
  | [] => .rejected .noByte
  | b :: rest => .instr (decodeByte c b) rest

/-- The context an instruction stands in (R76). -/
def Instr.context : Instr → Context
  | .blank => .boundary
  | .raw => .boundary
  | .rle => .boundary
  | .xrle => .boundary
  | .clr0 => .boundary
  | .clr1 => .boundary
  | .unk _ => .boundary
  | .run _ _ => .runOvr
  | .xrun _ _ => .runXor
  | .rawb _ => .rawPayload

/-- A run byte has `n` in bits 7:1 and `v` in bit 0, so its value is `2n + v` (R73). -/
def encodeRun (n : BitVec 7) (v : Bool) : Byte := n ++ BitVec.ofBool v

/-- The encoder: the byte each instruction is written as (R72, R73, R74, R81). -/
def encode : Instr → List Byte
  | .blank => [0x00#8]
  | .raw => [0x01#8]
  | .rle => [0x02#8]
  | .xrle => [0x03#8]
  | .clr0 => [0x04#8]
  | .clr1 => [0x05#8]
  | .unk op => [op]
  | .run n v => [encodeRun n v]
  | .xrun n v => [encodeRun n v]
  | .rawb d => [d]

/-- The byte that a word of the opcode table is: its low `nbits` bits, zeros above. Every row is 8 bits. -/
def tableWordByte (nbits w : Nat) : Byte := BitVec.ofNat 8 (w % 2 ^ nbits)

/-- The instruction the decoder reads from a table word. The word carries no context, so it is read where the first
byte of a stream stands, at a frame boundary (R76; DESIGN CHOICE, log 10): a word of a `RUN`, `XRUN` or `RAWB` row is
read as the opcode byte of the same bits. -/
def decodeTableWord (nbits w : Nat) : Option Instr :=
  match decode .boundary [tableWordByte nbits w] with
  | .instr i _ => some i
  | .rejected _ => none

end Sys2Proof
end

