-- ==== Sys2Proof/Config.lean ====
section
/-! DEFINITION. What is fixed for this hardware (00_scope.md R7, R9, R16) and the free values: what the spec
leaves open and nothing in the model may know. A free value has no body, so no proof can see it. -/

namespace Sys2Proof

/-- What the reference host does after a CORE fault (46_bytesource_and_host.md R158): stop ticking, or seek to
offset 0 and go on with the next tick. -/
inductive OnFault where
  | halt
  | restart
deriving DecidableEq, Repr, Inhabited

namespace Config

/-- Frame width in pixels (R7; fixed, log 2). -/
def W : Nat := 80

/-- Frame height in pixels (R7). -/
def H : Nat := 64

/-- Pixel count `P = W*H` (R7): 5120. -/
def P : Nat := W * H

/-- Frame buffer size in bytes, `NB = ceil(P/8)` (R7): 640. -/
def NB : Nat := (P + 7) / 8

/-- Largest run length in one run byte (R16). -/
def NMAX : Nat := 127

/-- Bytes taken from the byte source per pull (R16, 46 R151). The model's pull answers with at most one byte. -/
def BATCH : Nat := 1

/-- `HOST_LOOP`: the reference host restarts the stream when its opcode read fails (R16, 46 R157). Default true;
a reference host carries its own copy, so that a claim can set it (log 16). -/
def hostLoop : Bool := true

/-- `HOST_ON_FAULT`: open in the spec (R16, 46 R158), so a free value. DESIGN CHOICE (log 16): a reference host
carries its own copy, so that a claim can set it. -/
opaque hostOnFault : OnFault

/-- `FB_INIT` (R16, 10_state.md R37): the contents of frame buffer byte `j` after the reset number `epoch`, a free
value for each reset and each byte (log 3). -/
opaque fbInit : (epoch : Nat) → (j : Nat) → Byte

/-- The byte answered to a host read whose value the spec leaves unspecified (20_memory.md R59): a fresh free value
for each such read, numbered by a counter of State (log 5). -/
opaque readDraw : (count : Nat) → Byte

/-- Whether the byte source had already consumed a byte when the reset number `epoch` withdrew an outstanding pull
(70_reset_and_hazards.md R191: "the source's business"): a free value (log 26). -/
opaque withdrawnPullTaken : (epoch : Nat) → Bool

end Config

end Sys2Proof
end

