-- ==== Sys2Proof/Machine/State.lean ====
section
/-! DEFINITION. The state (10_state.md), the reasons a step can stop, and the state right after reset. -/

namespace Sys2Proof.Machine

/-- `PHASE` (R25): what the CORE is doing. -/
inductive Phase where
  | idle
  | dispatch
  | raw
  | run
deriving DecidableEq, Repr

/-- `MODE` (R26): how a run is combined with the frame buffer. -/
inductive Mode where
  | ovr
  | xor
deriving DecidableEq, Repr

/-- `FCODE` (R30): the cause of the last frame's fault. Its codes 3 to 7 are never produced, so the register is a
three-valued type, as 93_implementation_defined.md I19 allows (log 23). -/
inductive FaultCode where
  | noFault
  | trunc
  | overrun
deriving DecidableEq, Repr

/-- The two answers to a pull (46 R150). -/
inductive Answer where
  | byte (b : Byte)
  | fail
deriving DecidableEq, Repr

/-- The byte source as the environment holds it: the answers to the coming pulls, oldest first, any bytes and
failures in any order (46 R150), with no further answer once they are used up (R153); or the reference environment's
stream `S` and position `SP` (10_state.md R34, 46 R155). DESIGN CHOICE (log 1). -/
inductive Source where
  | script (answers : List Answer)
  | stream (bytes : List Byte) (sp : Nat)
deriving DecidableEq, Repr

/-- The CORE's input pins at one clock edge (46 R159, R160, R162, R163), and two inputs that are no pins and stand for the
CORE's free latency (R163): `dispatchNow` says whether a pending dispatch step completes at this edge, `readNow` whether
the oldest pending frame buffer read is answered at it. The pin `srcData` need not be the byte that `State.source` holds
next; a completed `BYTE` consumes that one. DESIGN CHOICE (log 18, log 27). -/
structure Pins where
  rst : Bool
  cmdValid : Bool
  cmdOpcode : Byte
  srcValid : Bool
  srcFail : Bool
  srcData : Byte
  fbRen : Bool
  fbRaddr : BitVec 10
  dispatchNow : Bool
  readNow : Bool
deriving DecidableEq, Repr

/-- A frame buffer read that was requested at a clock edge and not answered yet (46 R162): its address, and whether `BUSY`
has been 0 ever since the request. DESIGN CHOICE (log 6). -/
structure PendingRead where
  addr : BitVec 10
  stable : Bool
deriving DecidableEq, Repr

/-- One move of the host (46 R164). -/
inductive HostMove where
  /-- The host does nothing: the CORE has the turn. -/
  | wait
  /-- The host offers `START(op)` (40 R90, R96). -/
  | start (op : Byte)
  /-- The host reads a byte of the frame buffer (20 R59). -/
  | readFb (a : BitVec 10)
  /-- The host asserts reset (70 R190). -/
  | reset
  /-- The same events bound to pins at a clock edge (46 R159 to R163). -/
  | edge (p : Pins)
deriving DecidableEq, Repr

/-- Where the reference host stands in its tick (46 R156). -/
inductive TickPhase where
  | readOp
  | waiting
  | halted
deriving DecidableEq, Repr

/-- The reference host loop with its two parameters (46 R156 to R158; log 16). -/
structure RefHost where
  loop : Bool
  onFault : OnFault
  tick : TickPhase
deriving DecidableEq, Repr

/-- The host: a script of moves, oldest first (46 R164), or the reference host (46 R156). DESIGN CHOICE (log 1). -/
inductive HostSide where
  | script (moves : List HostMove)
  | reference (r : RefHost)
deriving DecidableEq, Repr

/-- The state: the CORE's tuple of 10_state.md R36, the model's two counters of free values, and the environment's
part, which no rule of the CORE reads. -/
structure State where
  /-- `FB` (R20): the bytes written since the last reset, addresses strictly rising; an address that is not listed
  has kept its unspecified contents (log 3, log 4). -/
  fb : List Host.Cell
  /-- `CURSOR` (R23). -/
  cursor : BitVec 13
  /-- `PHASE` (R25). -/
  phase : Phase
  /-- `MODE` (R26). -/
  mode : Mode
  /-- `OP` (R27). -/
  op : Byte
  /-- `RIDX` (R28). -/
  ridx : BitVec 10
  /-- `DONE` (R29). -/
  done : Bool
  /-- `FAULT` (R29). -/
  fault : Bool
  /-- `UNK` (R29). -/
  unk : Bool
  /-- `SF` (R29, 60 R180). -/
  sf : Bool
  /-- `FCODE` (R30). -/
  fcode : FaultCode
  /-- The model's own: resets so far, so that each gives `FB` fresh unknown contents (log 3). -/
  fbEpoch : Nat
  /-- The model's own: unspecified host reads answered so far (log 5). -/
  readDraws : Nat
  /-- `fb_rvalid` and `fb_rdata` (46 R162): the byte answered by the latest event at the read port, none where that event
  was a clock edge that answered no read (log 6). -/
  readOut : Option Byte
  /-- The frame buffer reads requested at clock edges and not answered yet, oldest first (46 R162; log 6). -/
  pendingReads : List PendingRead
  /-- The byte source. -/
  source : Source
  /-- The host. -/
  host : HostSide
  /-- The bytes last handed to the display by the reference host (46 R156, R165; log 17). -/
  shown : Option (List Byte)
deriving DecidableEq, Repr

/-- Why a step stops with a fault of the MODEL. The two faults of the hardware, `FC_TRUNC` and `FC_OVERRUN`, are next
states (60 R174). -/
inductive Fault where
  /-- Raised by `RAWB` when `RIDX` is not below `NB`: the frame buffer has no such byte. Safe: 20_memory.md R57 says
  it cannot happen, and no state that meets the invariant raises it (log 8). -/
  | fbAddress
deriving DecidableEq, Repr

/-- Why a step has no meaning. -/
inductive Refusal where
  /-- Raised by exec for an instruction with no meaning yet: none. Safe. -/
  | notModelled (mnemonic : String)
  /-- Raised by a meaning applied where the `require` line of its rule does not hold (40 R91, 41 R106, 43 R126): the
  spec gives no such transition. Safe: a step chooses the instruction by the phase and never raises it (log 7). -/
  | outOfContext
deriving DecidableEq, Repr

/-- Right after reset (R37, 70 R190): idle, control state empty, every frame buffer byte unspecified. The environment
is not CORE state; it starts with nothing to do (DESIGN CHOICE, log 19). -/
def State.reset : State where
  fb := []
  cursor := 0#13
  phase := .idle
  mode := .ovr
  op := 0x00#8
  ridx := 0#10
  done := false
  fault := false
  unk := false
  sf := false
  fcode := .noFault
  fbEpoch := 0
  readDraws := 0
  readOut := none
  pendingReads := []
  source := .script []
  host := .script []
  shown := none

end Sys2Proof.Machine
end

