-- ==== Sys2Proof/Machine/Flags.lean ====
section
/-! DEFINITION. The derived flags and the output words the host reads (10_state.md R29, R38; 46 R159 to R161). -/

namespace Sys2Proof.Machine

/-- `BUSY = 1` exactly when `PHASE != IDLE` (R29). -/
def State.busy (s : State) : Bool := decide (s.phase ≠ .idle)

/-- The three bits of `FCODE` (R30, 60 R171). -/
def FaultCode.bits : FaultCode → BitVec 3
  | .noFault => 0#3
  | .trunc => 1#3
  | .overrun => 2#3

/-- The word `STATUS` (R38): `FCODE`, `SF`, `UNK`, `FAULT`, `DONE`, `BUSY` from bit 7 down to bit 0. -/
def State.status (s : State) : Byte :=
  s.fcode.bits ++ BitVec.ofBool s.sf ++ BitVec.ofBool s.unk ++ BitVec.ofBool s.fault ++ BitVec.ofBool s.done
    ++ BitVec.ofBool s.busy

/-- `cmd_ready = 1` exactly when `PHASE = IDLE` (46 R159). -/
def State.cmdReady (s : State) : Bool := decide (s.phase = .idle)

/-- `src_req = 1` exactly when `PHASE` is `RAW` or `RUN` (46 R160): only then does the CORE pull (R150, R152). -/
def State.srcReq (s : State) : Bool := decide (s.phase = .raw ∨ s.phase = .run)

/-- `op_q` (46 R161). -/
def State.opQ (s : State) : Byte := s.op

/-- `cursor_q` (46 R161). -/
def State.cursorQ (s : State) : BitVec 13 := s.cursor

/-- `ridx_q` (46 R161). -/
def State.ridxQ (s : State) : BitVec 10 := s.ridx

/-- `fb_rvalid` (46 R162; log 6). -/
def State.fbRvalid (s : State) : Bool := s.readOut.isSome

/-- The answer on the byte source port at an edge where `src_req = 1` (46 R160): `src_fail` wins over `src_valid`;
with neither the pull is not answered. -/
def Pins.answer (p : Pins) : Option Answer :=
  if p.srcFail then some .fail else if p.srcValid then some (.byte p.srcData) else none

end Sys2Proof.Machine
end

