-- ==== Sys2Proof/Machine/Operands.lean ====
section
/-! DEFINITION. The implicit operand of a run, the cursor, taken apart (42_bitpacker.md R110), and the masks and the
combine function of the bit-packer (R111, R112, R121). The explicit operands of an instruction are its fields, which
the decoder pulls out (30_encoding.md R75). -/

namespace Sys2Proof.Machine

/-- Byte index of cursor or pixel index `k`: `k div 8` (R110, 20 R51). -/
def byteIndex (k : Nat) : Nat := k / 8

/-- Pixel position of `k` in its byte, counted from the most significant bit: `k mod 8` (R110, 20 R51). -/
def offset (k : Nat) : Nat := k % 8

/-- Pixel positions left in the current byte, 1 to 8 (R110). -/
def avail (k : Nat) : Nat := 8 - offset k

/-- `M(a, b)` (R111): a 1 at every pixel position `p` with `a <= p < b`. Shifts are by 0 to 8 and a shift by 8 gives 0
(R112). -/
def mask (a b : Nat) : Byte := (0xFF#8 >>> a) &&& ~~~(0xFF#8 >>> b)

/-- `Wr(old, m, v, mode)` (R121). -/
def combine (old m : Byte) (v : Bool) (mode : Mode) : Byte :=
  match mode, v with
  | .ovr, true => old ||| m
  | .ovr, false => old &&& ~~~m
  | .xor, true => old ^^^ m
  | .xor, false => old

end Sys2Proof.Machine
end

