-- ==== Sys2Proof/Machine/Ops.lean ====
section
/-! DEFINITION. The named operations: the memory behind the frame buffer, the access primitives (20_memory.md R52),
the span write pixel by pixel and byte by byte (42_bitpacker.md), the two ends of a frame, `START`, `RESET`, the pull,
the host read, and the application of one run byte. -/

namespace Sys2Proof.Machine

/-! ### The memory: listed bytes, addresses strictly rising -/

/-- The canonical form: addresses strictly rising and below `NB` (20_memory.md R50). An unlisted address holds no
stored byte, so no entry can equal what an unlisted address holds, and equal memories are equal lists (log 4). -/
abbrev Memory.wf (m : List Host.Cell) : Prop :=
  m.Pairwise (fun c d => c.1 < d.1) ∧ ∀ c ∈ m, c.1 < Config.NB

/-- The stored byte at an address, if one is listed. -/
def Memory.get? : List Host.Cell → Nat → Option Byte
  | [], _ => none
  | (a, b) :: m, j => if j = a then some b else Memory.get? m j

/-- Store a byte at an address, keeping the addresses in order. -/
def Memory.set : List Host.Cell → Nat → Byte → List Host.Cell
  | [], j, v => [(j, v)]
  | (a, b) :: m, j, v =>
    if j < a then (j, v) :: (a, b) :: m
    else if j = a then (a, v) :: m
    else (a, b) :: Memory.set m j v

/-- `count` bytes listed with one value, from address `j` on. -/
def Memory.filledFrom (v : Byte) : (count j : Nat) → List Host.Cell
  | 0, _ => []
  | count + 1, j => (j, v) :: Memory.filledFrom v count (j + 1)

/-- Every byte of the frame buffer listed with one value. -/
def Memory.filled (v : Byte) : List Host.Cell := Memory.filledFrom v Config.NB 0

/-! ### The four access primitives (20_memory.md R52; total, log 25) -/

/-- `FBRead(j)`: the stored byte, or the free value the byte has held since the last reset (10_state.md R37; log 3). -/
def fbRead (s : State) (j : Nat) : Byte := (Memory.get? s.fb j).getD (Config.fbInit s.fbEpoch j)

/-- `FBWrite(j, v)`: all eight bits are written. -/
def fbWrite (j : Nat) (v : Byte) (s : State) : State := { s with fb := Memory.set s.fb j v }

/-- `PixGet(i)`: integer bit `7 - (i mod 8)` of byte `i div 8`. -/
def pixGet (s : State) (i : Nat) : Bool := (fbRead s (byteIndex i)).getLsbD (7 - offset i)

/-- `PixSet(i, v)`, as the byte operation of R52 with `m = 0x80 >> (i mod 8)`. -/
def pixSet (i : Nat) (v : Bool) (s : State) : State :=
  let m := 0x80#8 >>> offset i
  fbWrite (byteIndex i) (if v then fbRead s (byteIndex i) ||| m else fbRead s (byteIndex i) &&& ~~~m) s

/-- Every byte of the frame buffer to one value, the old contents not read (45_fill.md R145, R146). -/
def fbFill (v : Byte) (s : State) : State := { s with fb := Memory.filled v }

/-! ### The span write, pixel by pixel: the normative meaning (42_bitpacker.md R113) -/

/-- The new value of one pixel of a run. -/
def newPixel (old v : Bool) : Mode → Bool
  | .ovr => v
  | .xor => old ^^ v

/-- `ApplySpan(k, n, v, mode)`: pixels `k` to `k+n-1`, one after the other. -/
def applySpan (k : Nat) (v : Bool) (mode : Mode) : Nat → State → State
  | 0, s => s
  | n + 1, s => applySpan (k + 1) v mode n (pixSet k (newPixel (pixGet s k) v mode) s)

/-! ### The span write, byte by byte: what the hardware does (42_bitpacker.md R114 to R116) -/

/-- The working record of one span write: the frame buffer (in the state), the local cursor `k`, and `REM`, the
pixels still to write (10_state.md R31; log 12). `SAVE` is the byte read at the moment of use (R119). -/
structure SpanWork where
  s : State
  k : Nat
  rem : Nat

/-- Head (R114): the partial first byte. -/
def spanHead (v : Bool) (mode : Mode) (w : SpanWork) : SpanWork :=
  if offset w.k = 0 then w
  else
    let take := min w.rem (avail w.k)
    let save := fbRead w.s (byteIndex w.k)
    { s := fbWrite (byteIndex w.k) (combine save (mask (offset w.k) (offset w.k + take)) v mode) w.s
      k := w.k + take
      rem := w.rem - take }

/-- One whole byte of the body (R115). In `OVR` mode the old value is not needed. -/
def bodyByte (v : Bool) (mode : Mode) (w : SpanWork) : SpanWork :=
  let new := match mode with
    | .ovr => if v then 0xFF#8 else 0x00#8
    | .xor => combine (fbRead w.s (byteIndex w.k)) 0xFF#8 v .xor
  { s := fbWrite (byteIndex w.k) new w.s, k := w.k + 8, rem := w.rem - 8 }

/-- `count` whole bytes. -/
def spanBody (v : Bool) (mode : Mode) : Nat → SpanWork → SpanWork
  | 0, w => w
  | count + 1, w => spanBody v mode count (bodyByte v mode w)

/-- Tail (R116): the partial last byte. -/
def spanTail (v : Bool) (mode : Mode) (w : SpanWork) : SpanWork :=
  if w.rem = 0 then w
  else
    let save := fbRead w.s (byteIndex w.k)
    { s := fbWrite (byteIndex w.k) (combine save (mask 0 w.rem) v mode) w.s, k := w.k + w.rem, rem := 0 }

/-- Head, body, tail in this order. `while rem >= 8` runs `rem div 8` times, since each round takes 8 off. -/
def spanWork (k n : Nat) (v : Bool) (mode : Mode) (s : State) : SpanWork :=
  let h := spanHead v mode { s := s, k := k, rem := n }
  spanTail v mode (spanBody v mode (h.rem / 8) h)

/-- The span write a run byte performs: the hardware's byte-wise form, whose meaning is `applySpan` (R117; log 13). -/
def spanWrite (k n : Nat) (v : Bool) (mode : Mode) (s : State) : State := (spanWork k n v mode s).s

/-! ### The two ends of a frame, and its beginning -/

/-- `FrameEnd()` (40_dispatcher.md R94). -/
def frameEnd (s : State) : State := { s with phase := .idle, done := true }

/-- `raise Fault(code)` (60_exceptions.md R174): the one entry into a fault. There is no handler and no return: the
next accepted `START` clears the fault (R179). -/
def raiseFault (code : FaultCode) (s : State) : State :=
  { s with fcode := code, fault := true, sf := true, phase := .idle }

/-- A pending read over which `BUSY` has become 1: its answer is unspecified from now on (46 R162). -/
def PendingRead.spoil (r : PendingRead) : PendingRead := { r with stable := false }

/-- An accepted `START(op)` (40_dispatcher.md R90). `SF` is not cleared. It is the only event that makes `BUSY` 1, so it is
where the pending frame buffer reads lose their specified answer (46 R162; log 6). -/
def startFrame (op : Byte) (s : State) : State :=
  { s with
    op := op
    done := false
    fault := false
    unk := false
    fcode := .noFault
    phase := .dispatch
    pendingReads := s.pendingReads.map PendingRead.spoil }

/-- A `START` offered by the host: accepted when the CORE is idle, otherwise without effect (40_dispatcher.md R96;
log 22). -/
def offerStart (op : Byte) (s : State) : State := if s.cmdReady then startFrame op s else s

/-! ### The byte source (46_bytesource_and_host.md R150 to R155) -/

/-- `Pull()`: the answer, and the source after it. `BYTE` consumes one byte, `FAIL` none; `none` is a pull that is
not answered yet (R153). -/
def pull : Source → Option Answer × Source
  | .script [] => (none, .script [])
  | .script (a :: answers) => (some a, .script answers)
  | .stream bytes sp =>
    match bytes[sp]? with
    | some b => (some (.byte b), .stream bytes (sp + 1))
    | none => (some .fail, .stream bytes sp)

/-- The source after an answer was completed on the byte source port (46 R160): a `BYTE` consumes exactly the byte the
source would have given next, a `FAIL` or no answer consumes nothing. If the source has no byte next there is none to
consume (DESIGN CHOICE, log 27). -/
def consume (a : Option Answer) (src : Source) : Source :=
  match a, pull src with
  | some (.byte _), (some (.byte _), rest) => rest
  | _, _ => src

/-- `SP <- 0` (R155, R157). A script has no position, so it goes on with its next answer (log 20). -/
def rewind : Source → Source
  | .script answers => .script answers
  | .stream bytes _ => .stream bytes 0

/-- The source after a reset withdrew an outstanding pull: whether the stream's next byte had been consumed is not
known (70 R191; log 26). A script lists the answers the CORE receives, so it is left as it is. -/
def withdrawPull (epoch : Nat) : Source → Source
  | .script answers => .script answers
  | .stream bytes sp =>
    if Config.withdrawnPullTaken epoch && decide (sp < bytes.length) then .stream bytes (sp + 1) else .stream bytes sp

/-! ### Reset and host reads -/

/-- `RESET` (70_reset_and_hazards.md R190, R191): control state to its reset values, the frame buffer's contents
forgotten, the environment left alone but for a pull that was outstanding. -/
def resetEvent (s : State) : State :=
  { s with
    fb := []
    cursor := 0#13
    phase := .idle
    mode := .ovr
    op := 0x00#8
    ridx := 0#10
    done := false
    fault := false
    unk := false
    sf := false
    fcode := .noFault
    fbEpoch := s.fbEpoch + 1
    source := if s.srcReq then withdrawPull s.fbEpoch s.source else s.source }

/-- The answer to a host read of address `a` (20 R59, 46 R162): the byte when `BUSY` was 0 all along (`stable`) and
the address is below `NB`, otherwise a fresh free value. Nothing of the CORE changes. -/
def answerRead (a : BitVec 10) (stable : Bool) (s : State) : State :=
  if stable && decide (a.toNat < Config.NB) then { s with readOut := some (fbRead s a.toNat) }
  else { s with readOut := some (Config.readDraw s.readDraws), readDraws := s.readDraws + 1 }

/-- The host reads one byte, as one event (R59; log 6). -/
def hostRead (a : BitVec 10) (s : State) : State := answerRead a (!s.busy) s

/-- The read port at the beginning of a clock edge (46 R162; log 6): a read requested with `fb_ren = 1` joins the pending
ones, specified only if `BUSY` is 0 now, and no answer stands on the port yet. Every edge with `fb_ren = 1` is a request of
its own, also while a read is pending (DESIGN CHOICE, log 28). -/
def requestRead (p : Pins) (s : State) : State :=
  { s with
    readOut := none
    pendingReads := s.pendingReads ++ if p.fbRen then [{ addr := p.fbRaddr, stable := !s.busy }] else [] }

/-- The oldest pending read is answered (46 R162); none pending, nothing is (log 6). -/
def answerOldest (s : State) : State :=
  match s.pendingReads with
  | [] => s
  | r :: rest => answerRead r.addr r.stable { s with pendingReads := rest }

/-- `present(FB)` (46 R156, R165): the display is handed the bytes `FB[0..NB-1]` (log 17). -/
def present (s : State) : State := { s with shown := some ((List.range Config.NB).map (fbRead s)) }

/-! ### One run byte (43_run_overwrite.md R126, the `BYTE(rb)` arm) -/

/-- Apply a run at the cursor in the current mode: the overrun test, the span write, the new cursor, the end of the
pass. Sums are not truncated (R126). -/
def runByte (n : BitVec 7) (v : Bool) (s : State) : State :=
  let k := s.cursor.toNat
  if Config.P < k + n.toNat then raiseFault .overrun s
  else
    let t := { spanWrite k n.toNat v s.mode s with cursor := BitVec.ofNat 13 (k + n.toNat) }
    if k + n.toNat = Config.P then frameEnd t else t

/-! ### Where an instruction may run -/

/-- The `require PHASE = DISPATCH` of 40_dispatcher.md R91: elsewhere the spec gives no transition (log 7). -/
def atDispatch (s t : State) : Host.Outcome State Fault Refusal :=
  if s.phase = .dispatch then .next t else .refused .outOfContext

/-- The `require PHASE = RUN` of 43_run_overwrite.md R126, in the mode that makes the byte this instruction (log 7). -/
def inPass (mode : Mode) (s t : State) : Host.Outcome State Fault Refusal :=
  if s.phase = .run ∧ s.mode = mode then .next t else .refused .outOfContext

end Sys2Proof.Machine
end

