-- ==== Sys2Proof/Machine/Dispatcher.lean ====
section
/-! DEFINITION. The opcodes of 40_dispatcher.md that leave the frame buffer as it is. -/

namespace Sys2Proof.Machine

/-- `BLANK` (R92): `FrameEnd()`. -/
def execBlank (s : State) : Host.Outcome State Fault Refusal := atDispatch s (frameEnd s)

/-- `UNK` (R93): `UNK <- 1 ; FrameEnd()`. The byte's value is in `OP` and otherwise ignored. -/
def execUnk (_op : Byte) (s : State) : Host.Outcome State Fault Refusal :=
  atDispatch s (frameEnd { s with unk := true })

end Sys2Proof.Machine
end

