-- ==== Sys2Proof/Machine/Fill.lean ====
section
/-! DEFINITION. The fill operator (45_fill.md). -/

namespace Sys2Proof.Machine

/-- `CLR0` (R145): every byte to `0x00`, then `FrameEnd()`. -/
def execClr0 (s : State) : Host.Outcome State Fault Refusal := atDispatch s (frameEnd (fbFill 0x00#8 s))

/-- `CLR1` (R146): every byte to `0xFF`, then `FrameEnd()`. -/
def execClr1 (s : State) : Host.Outcome State Fault Refusal := atDispatch s (frameEnd (fbFill 0xFF#8 s))

end Sys2Proof.Machine
end

