-- ==== Sys2Proof/Machine/RawCopy.lean ====
section
/-! DEFINITION. The raw copy decoder (41_rawcopy.md). -/

namespace Sys2Proof.Machine

/-- `RAW` (R105): `RIDX <- 0 ; PHASE <- RAW`. -/
def execRaw (s : State) : Host.Outcome State Fault Refusal := atDispatch s { s with ridx := 0#10, phase := .raw }

/-- One payload byte copied (R106): `FB[RIDX] <- d`, and the end of the frame with the last one. -/
def copyByte (d : Byte) (s : State) : State :=
  let t := { fbWrite s.ridx.toNat d s with ridx := BitVec.ofNat 10 (s.ridx.toNat + 1) }
  if s.ridx.toNat + 1 = Config.NB then frameEnd t else t

/-- `RAWB d` (R106). `PHASE = RAW` implies `RIDX < NB` there; in a state where it does not hold the frame buffer has
no such byte (log 8). -/
def execRawb (d : Byte) (s : State) : Host.Outcome State Fault Refusal :=
  if s.phase = .raw then
    if s.ridx.toNat < Config.NB then .next (copyByte d s) else .fault .fbAddress
  else .refused .outOfContext

end Sys2Proof.Machine
end

