-- ==== Sys2Proof/Machine/Runs.lean ====
section
/-! DEFINITION. The two run-length decoders (43_run_overwrite.md, 44_run_delta.md). -/

namespace Sys2Proof.Machine

/-- The start of a pass (43 R125, 44 R135): `CURSOR <- 0`, the mode, `PHASE <- RUN`. -/
def beginPass (mode : Mode) (s : State) : State := { s with cursor := 0#13, mode := mode, phase := .run }

/-- `RLE` (43 R125). -/
def execRle (s : State) : Host.Outcome State Fault Refusal := atDispatch s (beginPass .ovr s)

/-- `XRLE` (44 R135). -/
def execXrle (s : State) : Host.Outcome State Fault Refusal := atDispatch s (beginPass .xor s)

/-- `RUN n, v` (43 R127): the run byte in `OVR` mode. -/
def execRun (n : BitVec 7) (v : Bool) (s : State) : Host.Outcome State Fault Refusal := inPass .ovr s (runByte n v s)

/-- `XRUN n, v` (44 R136): the run byte in `XOR` mode. -/
def execXrun (n : BitVec 7) (v : Bool) (s : State) : Host.Outcome State Fault Refusal := inPass .xor s (runByte n v s)

end Sys2Proof.Machine
end

