-- ==== Sys2Proof/Machine/Dispatch.lean ====
section
/-! DEFINITION. The one dispatch from an instruction to its meaning. -/

namespace Sys2Proof.Machine

def exec (i : Instr) (s : State) : Host.Outcome State Fault Refusal :=
  match i with
  | .blank => Sys2Proof.Machine.execBlank s
  | .raw => Sys2Proof.Machine.execRaw s
  | .rle => Sys2Proof.Machine.execRle s
  | .xrle => Sys2Proof.Machine.execXrle s
  | .clr0 => Sys2Proof.Machine.execClr0 s
  | .clr1 => Sys2Proof.Machine.execClr1 s
  | .unk op => Sys2Proof.Machine.execUnk op s
  | .run n v => Sys2Proof.Machine.execRun n v s
  | .xrun n v => Sys2Proof.Machine.execXrun n v s
  | .rawb d => Sys2Proof.Machine.execRawb d s

end Sys2Proof.Machine
end

