-- ==== Sys2Proof/Machine/Agents.lean ====
section
/-! DEFINITION. What each agent does in one event (00_scope.md R10, R11): the CORE's turn, the host's moves, the
reference host's tick (46_bytesource_and_host.md R156 to R158), and the events at a clock edge (46 R159 to R163). -/

namespace Sys2Proof.Machine

/-- The context of a payload byte (30_encoding.md R76): the phase and the mode of the frame in progress. -/
def payloadContext (s : State) : Context :=
  match s.phase, s.mode with
  | .raw, _ => .rawPayload
  | _, .ovr => .runOvr
  | _, .xor => .runXor

/-- What the CORE does with the answer to its pull (41 R106, 43 R126): a failure raises `FC_TRUNC` (60 R172), a byte is
the instruction of its context, no answer yet is a wait (46 R153; log 14). -/
def payloadStep (a : Option Answer) (s : State) : Host.Outcome State Fault Refusal :=
  match a with
  | none => .next s
  | some .fail => .next (raiseFault .trunc s)
  | some (.byte b) => exec (decodeByte (payloadContext s) b) s

/-- One CORE step given the answer the source has for it. Idle, it does nothing (60 R183; log 14); at a dispatch it
routes on `OP` and pulls nothing (40 R91); in a payload it uses the answer. -/
def coreStep (a : Option Answer) (s : State) : Host.Outcome State Fault Refusal :=
  match s.phase with
  | .idle => .next s
  | .dispatch => exec (decodeByte .boundary s.op) s
  | .raw => payloadStep a s
  | .run => payloadStep a s

/-- The CORE's turn: it pulls exactly when it needs a payload byte (46 R150, R152). -/
def coreTurn (s : State) : Host.Outcome State Fault Refusal :=
  if s.srcReq then coreStep (pull s.source).1 { s with source := (pull s.source).2 } else coreStep none s

/-- The event of the command port or of the CORE at a clock edge without reset (46 R159, R160, R163): a `START` handshake
when ready, a pull completed by the pins with the payload step it answers, or the pending dispatch step if it completes
at this edge. The byte is the pin `src_data`, whatever the source in the state holds next, and a completed `BYTE`
consumes one byte of that source (DESIGN CHOICE, log 18, log 27). -/
def edgeEvent (p : Pins) (s : State) : Host.Outcome State Fault Refusal :=
  if s.cmdReady then .next (if p.cmdValid then startFrame p.cmdOpcode s else s)
  else if s.srcReq then coreStep p.answer { s with source := consume p.answer s.source }
  else if p.dispatchNow then coreStep none s
  else .next s

/-- One clock edge (46 R159, R160, R162, R163; log 18): a reset overrides every handshake, the read port's included;
otherwise a read may be requested, the other ports have their event, and a pending read may be answered (log 6). -/
def clockEdge (p : Pins) (s : State) : Host.Outcome State Fault Refusal :=
  if p.rst then .next (resetEvent { s with readOut := none })
  else
    match edgeEvent p (requestRead p s) with
    | .next t => .next (if p.readNow then answerOldest t else t)
    | .fault r => .fault r
    | .refused r => .refused r

/-- One scripted move of the host (46 R164). -/
def hostMove (m : HostMove) (s : State) : Host.Outcome State Fault Refusal :=
  match m with
  | .wait => coreTurn s
  | .start op => .next (offerStart op s)
  | .readFb a => .next (hostRead a s)
  | .reset => .next (resetEvent s)
  | .edge p => clockEdge p s

/-- The reference host reads the opcode byte and starts the frame; if the read fails it restarts the stream or halts
(46 R156, R157; log 15, log 20). -/
def tickRead (r : RefHost) (s : State) : State :=
  match pull s.source with
  | (none, _) => s
  | (some (.byte op), src) => startFrame op { s with source := src, host := .reference { r with tick := .waiting } }
  | (some .fail, src) =>
    if r.loop then { s with source := rewind src } else { s with source := src, host := .reference { r with tick := .halted } }

/-- The end of a tick, once `BUSY = 0` (46 R156, R158): the frame is shown if it is done; after a fault the host halts
or restarts the stream. -/
def tickEnd (r : RefHost) (s : State) : State :=
  let t := if s.done then present s else s
  if s.fault then
    match r.onFault with
    | .halt => { t with host := .reference { r with tick := .halted } }
    | .restart => { t with source := rewind t.source, host := .reference { r with tick := .readOp } }
  else { t with host := .reference { r with tick := .readOp } }

/-- The reference host's move while the CORE is idle (46 R156). -/
def refMove (r : RefHost) (s : State) : State :=
  match r.tick with
  | .readOp => tickRead r s
  | .waiting => tickEnd r s
  | .halted => s

/-- The reference environment at its start, around a given CORE: the stream at position 0 and a host about to read its
first opcode, with the parameters of 00_scope.md R16 (46 R155, R156; log 16). -/
def referenceStart (bytes : List Byte) (s : State) : State :=
  { s with source := .stream bytes 0, host := .reference { loop := Config.hostLoop, onFault := Config.hostOnFault, tick := .readOp } }

/-- One event of the whole: the next scripted host move, the CORE's turn when the script is used up, or the reference
host, which waits while `BUSY = 1`. -/
def nextEvent (s : State) : Host.Outcome State Fault Refusal :=
  match s.host with
  | .script [] => coreTurn s
  | .script (m :: moves) => hostMove m { s with host := .script moves }
  | .reference r => if s.busy then coreTurn s else .next (refMove r s)

/-- The host lets the CORE have the next turn and then goes on. -/
def yieldTurn : HostSide → HostSide
  | .script moves => .script (.wait :: moves)
  | .reference r => .reference r

/-- The source answers the next pull with this byte: a script gets it in front, a stream at its position. -/
def offerByte (b : Byte) : Source → Source
  | .script answers => .script (.byte b :: answers)
  | .stream bytes sp => .stream (bytes.take sp ++ b :: bytes.drop (sp + 1)) (min sp bytes.length)

/-- A byte stored where the next step takes its instruction from: the opcode latched as by an accepted `START` when
idle, `OP` at a dispatch, the source's next byte in a payload; and the CORE has the turn. -/
def placeByte (b : Byte) (s : State) : State :=
  let t := { s with host := yieldTurn s.host }
  match s.phase with
  | .idle => startFrame b t
  | .dispatch => { t with op := b }
  | .raw => { t with source := offerByte b s.source }
  | .run => { t with source := offerByte b s.source }

end Sys2Proof.Machine
end

