-- ==== Sys2Proof/Machine/Step.lean ====
section
/-! DEFINITION. The step: one event (00_scope.md R10), untimed (70_reset_and_hazards.md R206; log 24), from a reset on
(R192; log 21). -/

namespace Sys2Proof.Machine

def step (s : State) : Host.Outcome State Fault Refusal := nextEvent s

/-- The state whose next step runs the instruction of this table word (log 11). -/
def State.withFetchWord (s : State) (nbits w : Nat) : State := placeByte (tableWordByte nbits w) s

end Sys2Proof.Machine
end

