-- ==== Sys2Proof/Safety.lean ====
section
/-! DEFINITION. What claims are stated with: the invariant of reachable states, a run without a faulted frame, when
the CORE has the turn, and the pixels of a run pass. -/

namespace Sys2Proof.Machine

/-- The flags (10_state.md R29, R30): at most one of `BUSY`, `DONE`, `FAULT`; `UNK` only with `DONE`; `FAULT` only with
`SF`, and exactly when `FCODE` is not 0. -/
def State.FlagsInv (s : State) : Prop :=
  (s.busy = true → s.done = false ∧ s.fault = false) ∧
  (s.done = true → s.fault = false) ∧
  (s.unk = true → s.done = true) ∧
  (s.fault = true → s.sf = true) ∧
  (s.fault = true ↔ s.fcode ≠ .noFault)

/-- The cursor (R24) and the mode (R26): never above `P`, below `P` during a pass and after a fault of one, exactly `P`
after a pass that ended normally; during a pass the mode is the one of the opcode. -/
def State.PassInv (s : State) : Prop :=
  s.cursor.toNat ≤ Config.P ∧
  (s.phase = .run → s.cursor.toNat < Config.P ∧ (s.op = 0x02#8 ∧ s.mode = .ovr ∨ s.op = 0x03#8 ∧ s.mode = .xor)) ∧
  (s.op = 0x02#8 ∨ s.op = 0x03#8 →
    (s.done = true → s.cursor.toNat = Config.P) ∧ (s.fault = true → s.cursor.toNat < Config.P))

/-- The raw index (R28): never above `NB`, below `NB` during a raw copy and after a fault of one, exactly `NB` after a
raw copy that ended normally. -/
def State.CopyInv (s : State) : Prop :=
  s.ridx.toNat ≤ Config.NB ∧
  (s.phase = .raw → s.ridx.toNat < Config.NB ∧ s.op = 0x01#8) ∧
  (s.op = 0x01#8 → (s.done = true → s.ridx.toNat = Config.NB) ∧ (s.fault = true → s.ridx.toNat < Config.NB))

/-- What the opcode last started says of the flags (R29, 60_exceptions.md R171): `UNK` marks exactly the unknown
opcodes, only a payload decoder faults and only a run pass overruns. -/
def State.OpcodeInv (s : State) : Prop :=
  (s.done = true → (s.unk = true ↔ 6 ≤ s.op.toNat)) ∧
  (s.fault = true → s.op = 0x01#8 ∨ s.op = 0x02#8 ∨ s.op = 0x03#8) ∧
  (s.fcode = .overrun → s.op = 0x02#8 ∨ s.op = 0x03#8)

/-- `BUSY`, `DONE` and `FAULT` are all 0 only between reset and the first `START` (R29), where the control state holds
its reset values (R37). -/
def State.FreshInv (s : State) : Prop :=
  s.busy = false → s.done = false → s.fault = false →
    s.op = 0x00#8 ∧ s.cursor = 0#13 ∧ s.ridx = 0#10 ∧ s.sf = false ∧ s.mode = .ovr

/-- The read port (46_bytesource_and_host.md R162): while `BUSY` is 1 no pending read has a specified answer. -/
def State.ReadsInv (s : State) : Prop := s.busy = true → ∀ r ∈ s.pendingReads, r.stable = false

/-- The stream position stays in the stream (46_bytesource_and_host.md R155). -/
def Source.Inv : Source → Prop
  | .script _ => True
  | .stream bytes sp => sp ≤ bytes.length

/-- The invariant of every reachable state. -/
structure State.Inv (s : State) : Prop where
  memory : Memory.wf s.fb
  flags : s.FlagsInv
  pass : s.PassInv
  copy : s.CopyInv
  opcode : s.OpcodeInv
  fresh : s.FreshInv
  reads : s.ReadsInv
  source : s.source.Inv

/-- "No frame since reset has faulted" (60_exceptions.md R180). -/
def State.noFrameFaulted (s : State) : Prop := s.sf = false

/-- The state in which the CORE takes its turn, if the next step is the CORE's: the host's script is used up, or its
next move is to wait, or the reference host waits for `BUSY = 0`. -/
def State.coreTurnState (s : State) : Option State :=
  match s.host with
  | .script [] => some s
  | .script (.wait :: moves) => some { s with host := .script moves }
  | .script (_ :: _) => none
  | .reference _ => if s.busy then some s else none

/-- So many steps, stopping at the first fault or refusal. -/
def runFor : Nat → State → Host.Outcome State Fault Refusal
  | 0, s => .next s
  | k + 1, s =>
    match step s with
    | .next t => runFor k t
    | .fault f => .fault f
    | .refused r => .refused r

/-- The pixel count of a list of runs. -/
def runsLength (runs : List (BitVec 7 × Bool)) : Nat := (runs.map fun r => r.1.toNat).sum

/-- The runs of a well-formed pass (30_encoding.md R84): lengths summing to `P`, every proper prefix to less. -/
def wholePass (runs : List (BitVec 7 × Bool)) : Prop :=
  runsLength runs = Config.P ∧ ∀ m, m < runs.length → runsLength (runs.take m) < Config.P

/-- The answers of a source that supplies these runs as run bytes. -/
def runAnswers (runs : List (BitVec 7 × Bool)) : List Answer := runs.map fun r => .byte (encodeRun r.1 r.2)

/-- Pixel `i` lies in run number `m` of a pass that begins at pixel 0. -/
def inRun (runs : List (BitVec 7 × Bool)) (m i : Nat) : Prop :=
  runsLength (runs.take m) ≤ i ∧ i < runsLength (runs.take (m + 1))

end Sys2Proof.Machine
end

