-- ==== Sys2Proof/Certificates/Slice0/Obligations.lean ====
section
/-! DEFINITION. The statements for the provers. Each docstring names the rules of spec/ it formalises. -/

open Sys2Proof Sys2Proof.Machine

/-! ### Encoding -/

/-- Words written out from 30_encoding.md R72 to R74 (the tables of 95_test_vectors.md B1), one or more per mnemonic. -/
def Obligations.SpecWordsDecode : Prop :=
  decode .boundary [0b00000000#8] = .instr .blank [] ∧
  decode .boundary [0b00000001#8] = .instr .raw [] ∧
  decode .boundary [0b00000010#8] = .instr .rle [] ∧
  decode .boundary [0b00000011#8] = .instr .xrle [] ∧
  decode .boundary [0b00000100#8] = .instr .clr0 [] ∧
  decode .boundary [0b00000101#8] = .instr .clr1 [] ∧
  decode .boundary [0b00000110#8] = .instr (.unk 0x06#8) [] ∧
  decode .boundary [0b10000010#8] = .instr (.unk 0x82#8) [] ∧
  decode .runOvr [0b00000111#8] = .instr (.run 3#7 true) [] ∧
  decode .runXor [0b10000000#8] = .instr (.xrun 64#7 false) [] ∧
  decode .rawPayload [0b11000001#8] = .instr (.rawb 0xC1#8) []

/-- Decoding an encoded well-formed instruction in its context gives it back and leaves the bytes that follow
(30_encoding.md R72, R73, R74, R76), for every instruction and every operand. -/
def Obligations.DecodeEncodeRoundTrip : Prop :=
  ∀ (i : Instr) (rest : List Byte), i.wellFormed = true → decode i.context (encode i ++ rest) = .instr i rest

/-- Every byte is an instruction in every context, is the only encoding of it, and the instruction stands in that context
(30_encoding.md R77, R79: no value traps and none is reserved). -/
def Obligations.EveryByteDecodesInEveryContext : Prop :=
  ∀ (c : Context) (b : Byte) (rest : List Byte),
    ∃ i : Instr, decode c (b :: rest) = .instr i rest ∧ i.wellFormed = true ∧ i.context = c ∧ encode i = [b]

/-- 40_dispatcher.md R97: the classification of opcode bytes, total, by the full value. -/
def Obligations.OpcodeClassification : Prop :=
  classify 0x00#8 = .blank ∧ classify 0x01#8 = .raw ∧ classify 0x02#8 = .rle ∧ classify 0x03#8 = .xrle ∧
  classify 0x04#8 = .clr0 ∧ classify 0x05#8 = .clr1 ∧ ∀ x : Byte, 6 ≤ x.toNat → classify x = .unk x

/-- 30_encoding.md R75: `n = rb >> 1` and `v = rb & 1`, unsigned and unscaled; an opcode byte and a raw byte are taken
whole. -/
def Obligations.OperandAssembly : Prop :=
  (∀ rb : Byte, (runLength rb).toNat = rb.toNat >>> 1 ∧ (runLength rb).toNat ≤ 127 ∧
    (runValue rb = true ↔ rb.toNat &&& 1 = 1) ∧
    decodeByte .runOvr rb = .run (runLength rb) (runValue rb) ∧
    decodeByte .runXor rb = .xrun (runLength rb) (runValue rb)) ∧
  (∀ op : Byte, decodeByte .boundary op = classify op) ∧
  (∀ d : Byte, decodeByte .rawPayload d = .rawb d)

/-! ### Datapath -/

/-- 20_memory.md R52: the four access primitives. A byte write writes all eight bits of one byte, a pixel is integer bit
`7 - (i mod 8)` of byte `i div 8`, a pixel write changes that bit only, and is the byte operation with `0x80 >> (i mod 8)`.
Reads have no effect: they are functions of the state. R52 defines the primitives for `j < NB` and `i < P`; that the
statement also covers larger addresses and pixels is the model's choice (DESIGN CHOICE, log 25). -/
def Obligations.AccessPrimitives : Prop :=
  ∀ s : State,
    (∀ (j : Nat) (v : Byte), fbWrite j v s = { s with fb := (fbWrite j v s).fb } ∧
      ∀ a, fbRead (fbWrite j v s) a = if a = j then v else fbRead s a) ∧
    (∀ i : Nat, pixGet s i = (fbRead s (i / 8)).getLsbD (7 - i % 8)) ∧
    ∀ (i : Nat) (v : Bool),
      (∀ a, pixGet (pixSet i v s) a = if a = i then v else pixGet s a) ∧
      pixSet i v s = fbWrite (i / 8)
        (if v then fbRead s (i / 8) ||| 0x80#8 >>> (i % 8) else fbRead s (i / 8) &&& ~~~(0x80#8 >>> (i % 8))) s

/-- 42_bitpacker.md R111: the mask by pixel position, its three equal forms and its special cases. -/
def Obligations.MaskForms : Prop :=
  (∀ a b : Nat, a ≤ b → b ≤ 8 →
    mask a b = (0xFF#8 >>> a) &&& ~~~(0xFF#8 >>> b) ∧
    (mask a b).toNat = 2 ^ (8 - a) - 2 ^ (8 - b) ∧
    (mask a b).toNat = ((1 <<< (8 - a)) - 1) - ((1 <<< (8 - b)) - 1) ∧
    ∀ p, p < 8 → ((mask a b).getLsbD (7 - p) = true ↔ a ≤ p ∧ p < b)) ∧
  (∀ a : Nat, a ≤ 8 → mask a a = 0x00#8 ∧ mask a 8 = 0xFF#8 >>> a ∧ mask 0 a = 0xFF#8 ^^^ (0xFF#8 >>> a) ∧
    mask 0 a = 0xFF#8 <<< (8 - a) ∧ (mask (8 - a) 8).toNat = (1 <<< a) - 1) ∧
  mask 0 8 = 0xFF#8

/-- 42_bitpacker.md R121: the combine function, inside and outside the mask. -/
def Obligations.CombineRule : Prop :=
  (∀ old m : Byte,
    combine old m true .ovr = old ||| m ∧ combine old m false .ovr = old &&& ~~~m ∧
    combine old m true .xor = old ^^^ m ∧ combine old m false .xor = old ∧
    ∀ v, combine old m v .xor = old ^^^ if v then m else 0x00#8) ∧
  (∀ (old m : Byte) (v : Bool) (mode : Mode), combine old m v mode &&& ~~~m = old &&& ~~~m) ∧
  (∀ (old m : Byte) (v : Bool) (i : Nat), m.getLsbD i = true →
    (combine old m v .ovr).getLsbD i = v ∧ (combine old m v .xor).getLsbD i = (old.getLsbD i ^^ v)) ∧
  (∀ (old : Byte) (v : Bool) (mode : Mode), combine old 0x00#8 v mode = old) ∧
  (∀ old : Byte, combine old 0xFF#8 true .ovr = 0xFF#8 ∧ combine old 0xFF#8 false .ovr = 0x00#8 ∧
    combine old 0xFF#8 true .xor = ~~~old)

/-- 42_bitpacker.md R113: `ApplySpan` combines the pixels of `[k, k+n)` and changes no other pixel; with `n = 0` it
changes nothing. Nothing but the frame buffer is written. R113 defines it for `k + n <= P`; that the statement also covers
larger arguments is the model's choice (DESIGN CHOICE, log 25). -/
def Obligations.ApplySpanMeaning : Prop :=
  ∀ (k n : Nat) (v : Bool) (s : State),
    (∀ i, k ≤ i → i < k + n → pixGet (applySpan k v .ovr n s) i = v ∧
      pixGet (applySpan k v .xor n s) i = (pixGet s i ^^ v)) ∧
    ∀ mode : Mode, (∀ i, ¬ (k ≤ i ∧ i < k + n) → pixGet (applySpan k v mode n s) i = pixGet s i) ∧
      applySpan k v mode 0 s = s ∧ applySpan k v mode n s = { s with fb := (applySpan k v mode n s).fb }

/-- 42_bitpacker.md R117: head, body and tail leave every byte exactly as the pixel-by-pixel `ApplySpan` does, for every
cursor, length, value, mode and content, and end with the cursor at `k + n` and nothing left to write. R117 keeps to the
domain of R113, `k + n <= P`; that the statement also covers larger arguments is the model's choice (DESIGN CHOICE, log
25). -/
def Obligations.SpanBytewiseEqualsPixelwise : Prop :=
  ∀ (k n : Nat) (v : Bool) (mode : Mode) (s : State),
    (∀ j, fbRead (spanWork k n v mode s).s j = fbRead (applySpan k v mode n s) j) ∧
    (spanWork k n v mode s).k = k + n ∧ (spanWork k n v mode s).rem = 0 ∧
    (spanWork k n v mode s).s = { s with fb := (spanWork k n v mode s).s.fb }

/-- 43_run_overwrite.md R128: the overwrite property of the span write a `RUN` performs, and its consequences: idempotent,
independent of the old contents on the run, and commuting over disjoint ranges. R128 keeps to `k + n <= P`; that the
statement also covers larger arguments is the model's choice (DESIGN CHOICE, log 25). -/
def Obligations.OverwriteProperty : Prop :=
  ∀ (k n : Nat) (v : Bool) (s : State),
    (∀ i, k ≤ i → i < k + n → pixGet (spanWrite k n v .ovr s) i = v) ∧
    (∀ i, ¬ (k ≤ i ∧ i < k + n) → pixGet (spanWrite k n v .ovr s) i = pixGet s i) ∧
    (∀ j, fbRead (spanWrite k n v .ovr (spanWrite k n v .ovr s)) j = fbRead (spanWrite k n v .ovr s) j) ∧
    (∀ (s' : State) (i : Nat), k ≤ i → i < k + n →
      pixGet (spanWrite k n v .ovr s) i = pixGet (spanWrite k n v .ovr s') i) ∧
    ∀ (k' n' : Nat) (v' : Bool), k + n ≤ k' ∨ k' + n' ≤ k → ∀ j,
      fbRead (spanWrite k' n' v' .ovr (spanWrite k n v .ovr s)) j
        = fbRead (spanWrite k n v .ovr (spanWrite k' n' v' .ovr s)) j

/-- 44_run_delta.md R139: the same delta run applied twice at the same cursor restores every byte, whether or not it
crosses a byte boundary; pixel by pixel and byte by byte. R139 keeps to `k + n <= P`; that the statement also covers
larger arguments is the model's choice (DESIGN CHOICE, log 25). -/
def Obligations.DeltaRunIsSelfInverse : Prop :=
  ∀ (k n : Nat) (v : Bool) (s : State) (j : Nat),
    fbRead (applySpan k v .xor n (applySpan k v .xor n s)) j = fbRead s j ∧
    fbRead (spanWrite k n v .xor (spanWrite k n v .xor s)) j = fbRead s j

/-! ### Reset, START and the status word -/

/-- The state after reset (10_state.md R37): control state at its reset values, `STATUS` zero, and every frame buffer byte
the free value of its address (DESIGN CHOICE, log 3). -/
def Obligations.ResetState : Prop :=
  State.reset.phase = .idle ∧ State.reset.mode = .ovr ∧ State.reset.op = 0x00#8 ∧ State.reset.cursor = 0#13 ∧
  State.reset.ridx = 0#10 ∧ State.reset.done = false ∧ State.reset.fault = false ∧ State.reset.unk = false ∧
  State.reset.sf = false ∧ State.reset.fcode = .noFault ∧ State.reset.status = 0x00#8 ∧
  ∀ j, fbRead State.reset j = Config.fbInit 0 j

/-- The event `RESET` (70_reset_and_hazards.md R190, R191), in any state: the control state cleared, every frame buffer
byte a fresh free value (DESIGN CHOICE, log 3), the environment untouched but for a pull that was outstanding on a stream,
whose byte may have been consumed (log 26). That the read port is untouched too, its pending reads and its last answer, is
the model's choice (DESIGN CHOICE, log 6): neither rule speaks of it. -/
def Obligations.ResetEvent : Prop :=
  ∀ (s : State) (moves : List HostMove), s.host = .script (.reset :: moves) →
    ∃ t, step s = .next t ∧
      t = { s with
        fb := [], cursor := 0#13, phase := .idle, mode := .ovr, op := 0x00#8, ridx := 0#10, done := false, fault := false,
        unk := false, sf := false, fcode := .noFault, fbEpoch := s.fbEpoch + 1, source := t.source,
        host := .script moves } ∧
      t.status = 0x00#8 ∧ t.cmdReady = true ∧ t.srcReq = false ∧
      (∀ j, fbRead t j = Config.fbInit (s.fbEpoch + 1) j) ∧
      (s.srcReq = false → t.source = s.source) ∧
      (∀ answers, s.source = .script answers → t.source = s.source) ∧
      ∀ bytes sp, s.source = .stream bytes sp → t.source = s.source ∨ t.source = .stream bytes (sp + 1)

/-- 40_dispatcher.md R90, R96: a `START`, of any opcode byte, is accepted only when the CORE is idle, and then writes `OP`,
the flags and the phase and nothing else of the CORE (`SF` is kept), and marks the reads pending on the read port as
unspecified (DESIGN CHOICE, log 6); offered while the CORE is busy it has no effect on any state of the CORE (the offer is
used up from the script: DESIGN CHOICE, log 22). -/
def Obligations.StartOnlyWhenIdle : Prop :=
  ∀ (s : State) (op : Byte) (moves : List HostMove), s.host = .script (.start op :: moves) →
    (s.phase = .idle → s.cmdReady = true ∧
      ∃ t, step s = .next t ∧ t.busy = true ∧ (∀ j, fbRead t j = fbRead s j) ∧
        t = { s with
          op := op, done := false, fault := false, unk := false, fcode := .noFault, phase := .dispatch,
          pendingReads := s.pendingReads.map PendingRead.spoil, host := .script moves }) ∧
    (s.phase ≠ .idle → s.cmdReady = false ∧ step s = .next { s with host := .script moves })

/-- The bits of `STATUS` and the other status outputs (10_state.md R38, 46_bytesource_and_host.md R161), with the codes of
`FCODE` (10_state.md R30, 60_exceptions.md R171): 0 `FC_NONE`, 1 `FC_TRUNC`, 2 `FC_OVERRUN`. -/
def Obligations.StatusWordLayout : Prop :=
  ∀ s : State,
    s.status.getLsbD 0 = s.busy ∧ s.status.getLsbD 1 = s.done ∧ s.status.getLsbD 2 = s.fault ∧
    s.status.getLsbD 3 = s.unk ∧ s.status.getLsbD 4 = s.sf ∧ s.status.extractLsb' 5 3 = s.fcode.bits ∧
    (s.fcode = .noFault → s.status.toNat / 32 = 0) ∧ (s.fcode = .trunc → s.status.toNat / 32 = 1) ∧
    (s.fcode = .overrun → s.status.toNat / 32 = 2) ∧
    (s.busy = true ↔ s.phase ≠ .idle) ∧ s.opQ = s.op ∧ s.cursorQ = s.cursor ∧ s.ridxQ = s.ridx

/-! ### A step runs the decoded instruction -/

/-- 40_dispatcher.md R91: at a dispatch the step is exec of the instruction `OP` decodes to; nothing is pulled. -/
def Obligations.StepRunsDispatchedOpcode : Prop :=
  ∀ (s c : State) (i : Instr), s.coreTurnState = some c → c.phase = .dispatch →
    decode .boundary [c.op] = .instr i [] → step s = exec i c

/-- 41_rawcopy.md R106, 43_run_overwrite.md R126: in a payload the step is exec of the instruction the pulled byte decodes
to in the context of the frame, on the state in which the byte has been consumed. -/
def Obligations.StepRunsPayloadByte : Prop :=
  ∀ (s c : State) (b : Byte) (src : Source) (i : Instr), s.coreTurnState = some c → c.srcReq = true →
    pull c.source = (some (.byte b), src) → decode (payloadContext c) [b] = .instr i [] →
    step s = exec i { c with source := src }

/-- 46_bytesource_and_host.md R153, 60_exceptions.md R183: a pull that is not answered, and a CORE that is idle, change
nothing (the step that stands for waiting is the model's, log 14). -/
def Obligations.WaitingChangesNothing : Prop :=
  ∀ s c : State, s.coreTurnState = some c →
    (c.srcReq = true → c.source = .script [] → step s = .next c) ∧ (c.phase = .idle → step s = .next c)

/-! ### The instructions at a dispatch -/

/-- 40_dispatcher.md R92: `BLANK` is the opcode byte 0, ends the frame and changes nothing else: no pixel, no cursor, no
index, no pull, no other flag. -/
def Obligations.BlankEndsTheFrame : Prop :=
  classify 0x00#8 = .blank ∧
  ∀ s : State, s.phase = .dispatch →
    ∃ t, exec .blank s = .next t ∧ t = { s with phase := .idle, done := true } ∧
      (∀ j, fbRead t j = fbRead s j) ∧ ∀ i, pixGet t i = pixGet s i

/-- 40_dispatcher.md R93: `UNK`, any opcode byte from 6 on, does the same and sets `UNK`. -/
def Obligations.UnknownOpcodeIsNoOp : Prop :=
  (∀ op : Byte, 6 ≤ op.toNat → classify op = .unk op) ∧
  ∀ (op : Byte) (s : State), s.phase = .dispatch →
    ∃ t, exec (.unk op) s = .next t ∧ t = { s with phase := .idle, done := true, unk := true } ∧
      ∀ j, fbRead t j = fbRead s j

/-- 41_rawcopy.md R105: the dispatch of `RAW`. -/
def Obligations.RawDispatchBeginsCopy : Prop :=
  classify 0x01#8 = .raw ∧
  ∀ s : State, s.phase = .dispatch →
    ∃ t, exec .raw s = .next t ∧ t = { s with ridx := 0#10, phase := .raw } ∧ t.busy = true ∧
      ∀ j, fbRead t j = fbRead s j

/-- 43_run_overwrite.md R125: the dispatch of `RLE`. -/
def Obligations.RleDispatchBeginsPass : Prop :=
  classify 0x02#8 = .rle ∧
  ∀ s : State, s.phase = .dispatch →
    ∃ t, exec .rle s = .next t ∧ t = { s with cursor := 0#13, mode := .ovr, phase := .run } ∧ t.busy = true ∧
      t.cursor.toNat < Config.P ∧ ∀ j, fbRead t j = fbRead s j

/-- The dispatch of `XRLE` (44_run_delta.md R135; its run loop is `DeltaRunInvertsPixels` and the statements about both
modes). -/
def Obligations.XrleDispatchBeginsPass : Prop :=
  classify 0x03#8 = .xrle ∧
  ∀ s : State, s.phase = .dispatch →
    ∃ t, exec .xrle s = .next t ∧ t = { s with cursor := 0#13, mode := .xor, phase := .run } ∧ t.busy = true ∧
      t.cursor.toNat < Config.P ∧ ∀ j, fbRead t j = fbRead s j

/-- 45_fill.md R145: `CLR0` sets every byte to `0x00`, hence every pixel to 0 (R147), and ends the frame. -/
def Obligations.Clr0ClearsEveryByte : Prop :=
  classify 0x04#8 = .clr0 ∧
  ∀ s : State, s.phase = .dispatch →
    ∃ t, exec .clr0 s = .next t ∧ t = { s with fb := t.fb, phase := .idle, done := true } ∧
      (∀ j, j < Config.NB → fbRead t j = 0x00#8) ∧ ∀ i, i < Config.P → pixGet t i = false

/-- 45_fill.md R146: `CLR1` sets every byte to `0xFF`, hence every pixel to 1 (R147), and ends the frame. -/
def Obligations.Clr1SetsEveryByte : Prop :=
  classify 0x05#8 = .clr1 ∧
  ∀ s : State, s.phase = .dispatch →
    ∃ t, exec .clr1 s = .next t ∧ t = { s with fb := t.fb, phase := .idle, done := true } ∧
      (∀ j, j < Config.NB → fbRead t j = 0xFF#8) ∧ ∀ i, i < Config.P → pixGet t i = true

/-! ### The payload instructions -/

/-- 41_rawcopy.md R106: `RAWB d`, any byte, writes `FB[RIDX]` and no other byte, counts it, and ends the frame with the last; a failed
pull raises `FC_TRUNC` and writes nothing. -/
def Obligations.RawByteIsCopied : Prop :=
  (∀ d : Byte, decodeByte .rawPayload d = .rawb d) ∧
  (∀ (d : Byte) (s : State), s.phase = .raw → s.ridx.toNat < Config.NB →
    ∃ t, exec (.rawb d) s = .next t ∧
      t = { s with fb := t.fb, ridx := t.ridx, phase := t.phase, done := t.done } ∧
      t.ridx.toNat = s.ridx.toNat + 1 ∧
      (s.ridx.toNat + 1 = Config.NB → t.phase = .idle ∧ t.done = true ∧ t.srcReq = false) ∧
      (s.ridx.toNat + 1 < Config.NB → t.phase = .raw ∧ t.done = s.done) ∧
      fbRead t s.ridx.toNat = d ∧ (∀ j, j ≠ s.ridx.toNat → fbRead t j = fbRead s j) ∧
      ∀ p, p < 8 → pixGet t (8 * s.ridx.toNat + p) = d.getLsbD (7 - p)) ∧
  ∀ (s c : State) (src : Source), s.coreTurnState = some c → c.phase = .raw → pull c.source = (some .fail, src) →
    step s = .next { c with source := src, fcode := .trunc, fault := true, sf := true, phase := .idle }

/-- 43_run_overwrite.md R127: `RUN n, v`, the byte `2n + v`, sets the `n` pixels from the cursor on to `v`, changes no other
pixel and no byte without such a pixel, advances the cursor by `n`, and ends the frame exactly at `P`; each byte is its
old value with the covered positions combined; past `P` it raises `FC_OVERRUN` and leaves frame buffer and cursor. -/
def Obligations.OverwriteRunSetsPixels : Prop :=
  (∀ (n : BitVec 7) (v : Bool), (encodeRun n v).toNat = 2 * n.toNat + v.toNat ∧
    decodeByte .runOvr (encodeRun n v) = .run n v) ∧
  ∀ (n : BitVec 7) (v : Bool) (s : State), s.phase = .run → s.mode = .ovr →
    (s.cursor.toNat + n.toNat ≤ Config.P →
      ∃ t, exec (.run n v) s = .next t ∧
        t = { s with fb := t.fb, cursor := t.cursor, phase := t.phase, done := t.done } ∧
        t.cursor.toNat = s.cursor.toNat + n.toNat ∧
        (s.cursor.toNat + n.toNat = Config.P → t.phase = .idle ∧ t.done = true) ∧
        (s.cursor.toNat + n.toNat < Config.P → t.phase = .run ∧ t.done = s.done) ∧
        (∀ i, s.cursor.toNat ≤ i → i < s.cursor.toNat + n.toNat → pixGet t i = v) ∧
        (∀ i, ¬ (s.cursor.toNat ≤ i ∧ i < s.cursor.toNat + n.toNat) → pixGet t i = pixGet s i) ∧
        (∀ j, fbRead t j = combine (fbRead s j)
          (mask (min 8 (s.cursor.toNat - 8 * j)) (min 8 (s.cursor.toNat + n.toNat - 8 * j))) v .ovr) ∧
        ∀ j, 8 * j + 8 ≤ s.cursor.toNat ∨ s.cursor.toNat + n.toNat ≤ 8 * j → fbRead t j = fbRead s j) ∧
    (Config.P < s.cursor.toNat + n.toNat →
      exec (.run n v) s = .next { s with fcode := .overrun, fault := true, sf := true, phase := .idle })

/-- 44_run_delta.md R136: `XRUN n, v`, the byte `2n + v`, exclusive-ors the `n` pixels from the cursor on with `v`; the rest
as `RUN`. -/
def Obligations.DeltaRunInvertsPixels : Prop :=
  (∀ (n : BitVec 7) (v : Bool), (encodeRun n v).toNat = 2 * n.toNat + v.toNat ∧
    decodeByte .runXor (encodeRun n v) = .xrun n v) ∧
  ∀ (n : BitVec 7) (v : Bool) (s : State), s.phase = .run → s.mode = .xor →
    (s.cursor.toNat + n.toNat ≤ Config.P →
      ∃ t, exec (.xrun n v) s = .next t ∧
        t = { s with fb := t.fb, cursor := t.cursor, phase := t.phase, done := t.done } ∧
        t.cursor.toNat = s.cursor.toNat + n.toNat ∧
        (s.cursor.toNat + n.toNat = Config.P → t.phase = .idle ∧ t.done = true) ∧
        (s.cursor.toNat + n.toNat < Config.P → t.phase = .run ∧ t.done = s.done) ∧
        (∀ i, s.cursor.toNat ≤ i → i < s.cursor.toNat + n.toNat → pixGet t i = (pixGet s i ^^ v)) ∧
        (∀ i, ¬ (s.cursor.toNat ≤ i ∧ i < s.cursor.toNat + n.toNat) → pixGet t i = pixGet s i) ∧
        (∀ j, fbRead t j = combine (fbRead s j)
          (mask (min 8 (s.cursor.toNat - 8 * j)) (min 8 (s.cursor.toNat + n.toNat - 8 * j))) v .xor) ∧
        ∀ j, 8 * j + 8 ≤ s.cursor.toNat ∨ s.cursor.toNat + n.toNat ≤ 8 * j → fbRead t j = fbRead s j) ∧
    (Config.P < s.cursor.toNat + n.toNat →
      exec (.xrun n v) s = .next { s with fcode := .overrun, fault := true, sf := true, phase := .idle })

/-- 43_run_overwrite.md R130: a zero-length run byte, `0x00` or `0x01`, is consumed, in either mode; it changes no byte,
leaves the cursor, cannot overrun and does not end the pass. -/
def Obligations.ZeroLengthRunChangesNothing : Prop :=
  (∀ rb : Byte, runLength rb = 0#7 ↔ rb = 0x00#8 ∨ rb = 0x01#8) ∧
  ∀ (s c : State) (rb : Byte) (src : Source), s.coreTurnState = some c → c.phase = .run → c.cursor.toNat < Config.P →
    pull c.source = (some (.byte rb), src) → runLength rb = 0#7 →
    ∃ t, step s = .next t ∧ t = { c with fb := t.fb, source := src } ∧ ∀ j, fbRead t j = fbRead c j

/-- 60_exceptions.md R173: a run byte that would pass the end of the frame is consumed, no part of it is applied, and the
frame ends with `FC_OVERRUN`; in either mode. -/
def Obligations.OverrunFaultsWithoutEffect : Prop :=
  ∀ (s c : State) (rb : Byte) (src : Source), s.coreTurnState = some c → c.phase = .run →
    pull c.source = (some (.byte rb), src) → Config.P < c.cursor.toNat + (runLength rb).toNat →
    step s = .next { c with source := src, fcode := .overrun, fault := true, sf := true, phase := .idle }

/-- 60_exceptions.md R172: a failed pull in a payload raises `FC_TRUNC`; nothing is written and the stream does not move. -/
def Obligations.FailedPullFaultsWithoutEffect : Prop :=
  ∀ (s c : State) (src : Source), s.coreTurnState = some c → c.srcReq = true → pull c.source = (some .fail, src) →
    step s = .next { c with source := src, fcode := .trunc, fault := true, sf := true, phase := .idle } ∧
    ∀ bytes sp, c.source = .stream bytes sp → src = .stream bytes sp

/-- Where a meaning stops (the model's choice, log 7 and log 8; the `require` lines of 40 R91, 41 R106, 43 R126): an
instruction outside its context is refused, and `RAWB` with `RIDX` not below `NB` faults. -/
def Obligations.MeaningsStopOutsideTheirContext : Prop :=
  ∀ (i : Instr) (s : State),
    (i.context = .boundary → s.phase ≠ .dispatch → exec i s = .refused .outOfContext) ∧
    (i.context = .runOvr → ¬ (s.phase = .run ∧ s.mode = .ovr) → exec i s = .refused .outOfContext) ∧
    (i.context = .runXor → ¬ (s.phase = .run ∧ s.mode = .xor) → exec i s = .refused .outOfContext) ∧
    (i.context = .rawPayload → s.phase ≠ .raw → exec i s = .refused .outOfContext) ∧
    (i.context = .rawPayload → s.phase = .raw → Config.NB ≤ s.ridx.toNat → exec i s = .fault .fbAddress)

/-! ### The whole machine -/

/-- The invariant holds after reset. -/
def Obligations.ResetMeetsTheInvariant : Prop := State.reset.Inv

/-- Every step from a state that meets the invariant gives a state that meets it: memory in canonical form, cursor and raw
index in range, flags consistent (10_state.md R24, R28, R29, R30), no specified read pending while busy (log 6). -/
def Obligations.StepKeepsTheInvariant : Prop :=
  ∀ s t : State, s.Inv → step s = .next t → t.Inv

/-- No state that meets the invariant stops the machine (20_memory.md R57, 60_exceptions.md R170). -/
def Obligations.InvariantStatesAlwaysStep : Prop :=
  ∀ s : State, s.Inv → ∃ t, step s = .next t

/-- A step never refuses, whatever the state, and faults only where a raw copy stands past the frame buffer (log 7, log 8). -/
def Obligations.StepStopsOnlyPastTheFrameBuffer : Prop :=
  ∀ s : State, (∀ r, step s ≠ .refused r) ∧
    ∀ f, step s = .fault f → s.phase = .raw ∧ Config.NB ≤ s.ridx.toNat

/-- The values `STATUS` can have (10_state.md R29, R30, R38, the table B7 of 95_test_vectors.md). -/
def Obligations.StatusValues : Prop :=
  ∀ s : State, s.Inv →
    s.status ∈ [0x00#8, 0x01#8, 0x02#8, 0x0A#8, 0x11#8, 0x12#8, 0x1A#8, 0x34#8, 0x54#8]

/-- Who writes the frame buffer (10_state.md R21, R22): in a step that is not a reset, only a fill, a raw byte (one byte) and
a run (the pixels between the old and the new cursor). -/
def Obligations.FrameBufferWriters : Prop :=
  ∀ s t : State, step s = .next t → t.fbEpoch = s.fbEpoch →
    (s.phase = .idle → ∀ j, fbRead t j = fbRead s j) ∧
    (s.phase = .dispatch → s.op ≠ 0x04#8 → s.op ≠ 0x05#8 → ∀ j, fbRead t j = fbRead s j) ∧
    (s.phase = .raw → ∀ j, j ≠ s.ridx.toNat → fbRead t j = fbRead s j) ∧
    (s.phase = .run → ∀ i, ¬ (s.cursor.toNat ≤ i ∧ i < t.cursor.toNat) → pixGet t i = pixGet s i)

/-- Who writes `CURSOR` (10_state.md R23, R24): in a step that is not a reset, only the dispatch of `RLE` or `XRLE`, to 0, and
a run, forwards, by at most 127 and not past `P`. -/
def Obligations.CursorWriters : Prop :=
  ∀ s t : State, step s = .next t → t.fbEpoch = s.fbEpoch → t.cursor ≠ s.cursor →
    (s.phase = .dispatch ∧ (s.op = 0x02#8 ∨ s.op = 0x03#8) ∧ t.cursor = 0#13) ∨
    (s.phase = .run ∧ s.cursor.toNat < t.cursor.toNat ∧ t.cursor.toNat ≤ s.cursor.toNat + 127 ∧
      t.cursor.toNat ≤ Config.P)

/-- Who writes `OP`, `RIDX` and `MODE` (10_state.md R26, R27, R28) in a step that is not a reset. -/
def Obligations.OpcodeIndexAndModeWriters : Prop :=
  ∀ s t : State, step s = .next t → t.fbEpoch = s.fbEpoch →
    (t.op ≠ s.op → s.phase = .idle ∧ t.phase = .dispatch) ∧
    (t.ridx ≠ s.ridx →
      (s.phase = .dispatch ∧ s.op = 0x01#8 ∧ t.ridx = 0#10) ∨ (s.phase = .raw ∧ t.ridx.toNat = s.ridx.toNat + 1)) ∧
    (t.mode ≠ s.mode → s.phase = .dispatch ∧ (s.op = 0x02#8 ∨ s.op = 0x03#8))

/-- 60_exceptions.md R180: `SF` is set by every fault and cleared only by reset. -/
def Obligations.StickyFaultFlag : Prop :=
  ∀ s t : State, step s = .next t →
    (s.sf = true → t.sf = false → t.fbEpoch = s.fbEpoch + 1) ∧
    (s.fault = false → t.fault = true → t.sf = true)

/-- Who moves the byte source (20_memory.md R56, 46_bytesource_and_host.md R152) under a scripted host: only a pull, only in a
payload, and by one answer. -/
def Obligations.PullsOnlyInAPayload : Prop :=
  ∀ (s t : State) (moves : List HostMove), s.host = .script moves → step s = .next t → t.fbEpoch = s.fbEpoch →
    t.source ≠ s.source → s.srcReq = true ∧ t.source = (pull s.source).2

/-- What a payload byte cannot do (60_exceptions.md R181): choose an opcode or a mode, start a frame, reset the block, or
touch a flag other than by a fault or the end of the frame. The fields of the read port are the model's form (log 6). -/
def Obligations.PayloadCannotSteer : Prop :=
  ∀ s c t : State, s.coreTurnState = some c → c.srcReq = true → step s = .next t →
    t.op = c.op ∧ t.mode = c.mode ∧ t.unk = c.unk ∧ t.fbEpoch = c.fbEpoch ∧ t.readDraws = c.readDraws ∧
    t.readOut = c.readOut ∧ t.pendingReads = c.pendingReads ∧ t.host = c.host ∧ t.shown = c.shown ∧
    (t.phase = c.phase ∧ t.done = c.done ∧ t.fault = c.fault ∧ t.sf = c.sf ∧ t.fcode = c.fcode ∨
      t.phase = .idle ∧ t.done = true ∧ t.fault = c.fault ∧ t.sf = c.sf ∧ t.fcode = c.fcode ∨
      t.phase = .idle ∧ t.done = c.done ∧ t.fault = true ∧ t.sf = true ∧ t.fcode ≠ .noFault)

/-- The flags are outputs only (10_state.md R29): two states that differ in the flags alone take, under a scripted host, steps
that differ in the flags alone. -/
def Obligations.FlagsDoNotSteer : Prop :=
  ∀ (s s' t : State) (moves : List HostMove), s.host = .script moves →
    s' = { s with done := s'.done, fault := s'.fault, unk := s'.unk, sf := s'.sf, fcode := s'.fcode } →
    step s = .next t →
    ∃ t', step s' = .next t' ∧
      t' = { t with done := t'.done, fault := t'.fault, unk := t'.unk, sf := t'.sf, fcode := t'.fcode }

/-! ### Whole frames -/

/-- 41_rawcopy.md R108: a whole `RAW` frame copies its `NB` payload bytes and consumes exactly them. -/
def Obligations.RawWholeFrame : Prop :=
  ∀ (s : State) (ds : List Byte) (rest : List Answer), s.phase = .dispatch → s.op = 0x01#8 → s.host = .script [] →
    ds.length = Config.NB → s.source = .script (ds.map .byte ++ rest) →
    ∃ t, runFor (1 + Config.NB) s = .next t ∧
      t = { s with fb := t.fb, ridx := t.ridx, phase := .idle, done := true, source := .script rest } ∧
      t.ridx.toNat = Config.NB ∧ ∀ j, j < Config.NB → ds[j]? = some (fbRead t j)

/-- 43_run_overwrite.md R131: a whole `RLE` frame gives every pixel the value of the one run that covers it, whatever the
frame buffer held, and consumes exactly its run bytes. -/
def Obligations.RleWholeFrame : Prop :=
  ∀ (s : State) (runs : List (BitVec 7 × Bool)) (rest : List Answer), s.phase = .dispatch → s.op = 0x02#8 →
    s.host = .script [] → wholePass runs → s.source = .script (runAnswers runs ++ rest) →
    ∃ t, runFor (1 + runs.length) s = .next t ∧
      t = { s with
        fb := t.fb, cursor := t.cursor, mode := .ovr, phase := .idle, done := true, source := .script rest } ∧
      t.cursor.toNat = Config.P ∧
      ∀ i, i < Config.P →
        ∃ m r, runs[m]? = some r ∧ inRun runs m i ∧ (∀ m', inRun runs m' i → m' = m) ∧ pixGet t i = r.2

/-- 44_run_delta.md R141: a whole `XRLE` frame exclusive-ors every pixel with the value of the run that covers it. -/
def Obligations.XrleWholeFrame : Prop :=
  ∀ (s : State) (runs : List (BitVec 7 × Bool)) (rest : List Answer), s.phase = .dispatch → s.op = 0x03#8 →
    s.host = .script [] → wholePass runs → s.source = .script (runAnswers runs ++ rest) →
    ∃ t, runFor (1 + runs.length) s = .next t ∧
      t = { s with
        fb := t.fb, cursor := t.cursor, mode := .xor, phase := .idle, done := true, source := .script rest } ∧
      t.cursor.toNat = Config.P ∧
      ∀ i, i < Config.P → ∃ m r, runs[m]? = some r ∧ inRun runs m i ∧ pixGet t i = (pixGet s i ^^ r.2)

/-- A truncated `RLE` frame (43_run_overwrite.md R132, 60_exceptions.md R175): the runs applied before the failed pull stay,
the pixels from the cursor on keep their old values, and the cursor tells how far it got. -/
def Obligations.TruncatedPassKeepsItsPrefix : Prop :=
  ∀ (s : State) (runs : List (BitVec 7 × Bool)) (rest : List Answer), s.phase = .dispatch → s.op = 0x02#8 →
    s.host = .script [] → runsLength runs < Config.P → s.source = .script (runAnswers runs ++ .fail :: rest) →
    ∃ t, runFor (1 + runs.length + 1) s = .next t ∧
      t = { s with
        fb := t.fb, cursor := t.cursor, mode := .ovr, phase := .idle, fcode := .trunc, fault := true, sf := true,
        source := .script rest } ∧
      t.cursor.toNat = runsLength runs ∧
      (∀ i, i < runsLength runs → ∃ m r, runs[m]? = some r ∧ inRun runs m i ∧ pixGet t i = r.2) ∧
      ∀ i, runsLength runs ≤ i → pixGet t i = pixGet s i

/-- A source that supplies nothing but zero-length runs keeps the pass going (70_reset_and_hazards.md R195): after any number
of them the CORE is still in the pass, at the same cursor, with the same frame buffer. -/
def Obligations.ZeroLengthRunsNeverEndAPass : Prop :=
  ∀ (s : State) (zeros : List Byte) (rest : List Answer), s.phase = .run → s.cursor.toNat < Config.P →
    s.host = .script [] → (∀ b ∈ zeros, b = 0x00#8 ∨ b = 0x01#8) → s.source = .script (zeros.map .byte ++ rest) →
    ∃ t, runFor zeros.length s = .next t ∧
      t = { s with fb := t.fb, source := .script rest } ∧ ∀ j, fbRead t j = fbRead s j

/-! ### The host and the ports -/

/-- A host read (20_memory.md R59, 46_bytesource_and_host.md R162): the byte when the CORE is idle and the address is in the
frame buffer, otherwise a fresh free value (DESIGN CHOICE, log 5); the CORE is not disturbed. -/
def Obligations.HostReadAnswer : Prop :=
  ∀ (s : State) (a : BitVec 10) (moves : List HostMove), s.host = .script (.readFb a :: moves) →
    (s.busy = false → a.toNat < Config.NB →
      step s = .next { s with host := .script moves, readOut := some (fbRead s a.toNat) }) ∧
    (s.busy = true ∨ Config.NB ≤ a.toNat →
      step s = .next { s with
        host := .script moves, readOut := some (Config.readDraw s.readDraws), readDraws := s.readDraws + 1 })

/-- The reference host's opcode read (46_bytesource_and_host.md R155 to R157): the byte at `SP` starts a frame; past the end
the stream restarts at offset 0 or the host halts, and the CORE takes no part. That the read and its `START` are one step is
the model's choice (DESIGN CHOICE, log 15), and so is that the accepted `START` marks the reads pending on the read port as
unspecified (DESIGN CHOICE, log 6). -/
def Obligations.ReferenceHostReadsOpcode : Prop :=
  ∀ (s : State) (r : RefHost) (bytes : List Byte) (sp : Nat),
    s.host = .reference r → r.tick = .readOp → s.phase = .idle → s.source = .stream bytes sp →
    (∀ op, bytes[sp]? = some op →
      step s = .next { s with
        op := op, done := false, fault := false, unk := false, fcode := .noFault, phase := .dispatch,
        pendingReads := s.pendingReads.map PendingRead.spoil, source := .stream bytes (sp + 1), host := .reference { r with tick := .waiting } }) ∧
    (bytes.length ≤ sp → r.loop = true → step s = .next { s with source := .stream bytes 0 }) ∧
    (bytes.length ≤ sp → r.loop = false → step s = .next { s with host := .reference { r with tick := .halted } })

/-- The end of a reference tick (46_bytesource_and_host.md R156, R158): a frame that is done is shown, byte for byte; a
faulted one is not, and the host halts or restarts the stream. That this is one step (log 15), and that what is shown is
recorded (log 17), are the model's choices (DESIGN CHOICE). -/
def Obligations.ReferenceHostEndsTick : Prop :=
  ∀ (s : State) (r : RefHost) (bytes : List Byte) (sp : Nat),
    s.host = .reference r → r.tick = .waiting → s.phase = .idle → s.source = .stream bytes sp →
    (s.done = true → s.fault = false →
      ∃ shown, step s = .next { s with shown := some shown, host := .reference { r with tick := .readOp } } ∧
        ∀ j, j < Config.NB → shown[j]? = some (fbRead s j)) ∧
    (s.done = false → s.fault = true → r.onFault = .halt →
      step s = .next { s with host := .reference { r with tick := .halted } }) ∧
    (s.done = false → s.fault = true → r.onFault = .restart →
      step s = .next { s with source := .stream bytes 0, host := .reference { r with tick := .readOp } })

/-- The events at a clock edge (46_bytesource_and_host.md R159, R160, R163; the binding is log 18), a read answered at it
apart (`ClockEdgeReads`); `c` is the state with the move taken and the read port's request noted (R162, log 6). Reset overrides all;
`START` is taken when ready, and `cmd_valid` does nothing otherwise; `src_fail` wins over `src_valid`; a completed `BYTE`
is the instruction of its context and consumes one byte of the source, none if it has none (log 27); every edge with
`fb_ren = 1` is a request of its own (DESIGN CHOICE, log 28); a pull with neither
waits; a pending dispatch step is exec of the decoded `OP` if it completes at this edge, and otherwise nothing happens. -/
def Obligations.ClockEdgeEvents : Prop :=
  ∀ (s c : State) (p : Pins) (moves : List HostMove), s.host = .script (.edge p :: moves) →
    c = { s with
      host := .script moves, readOut := none,
      pendingReads := if p.fbRen then s.pendingReads ++ [{ addr := p.fbRaddr, stable := !s.busy }]
        else s.pendingReads } →
    (p.rst = true → step s = .next (resetEvent { c with pendingReads := s.pendingReads })) ∧
    (p.rst = false → p.readNow = false →
      (s.phase = .idle → p.cmdValid = true → step s = .next (startFrame p.cmdOpcode c)) ∧
      (s.phase = .idle → p.cmdValid = false → step s = .next c) ∧
      (s.phase ≠ .idle → ∀ (valid : Bool) (op : Byte),
        step s = step { s with host := .script (.edge { p with cmdValid := valid, cmdOpcode := op } :: moves) }) ∧
      (s.srcReq = true → p.srcFail = true → step s = .next (raiseFault .trunc c)) ∧
      (s.srcReq = true → p.srcFail = false → p.srcValid = true →
        (∀ b rest, pull s.source = (some (.byte b), rest) →
          step s = exec (decodeByte (payloadContext c) p.srcData) { c with source := rest }) ∧
        ((∀ b rest, pull s.source ≠ (some (.byte b), rest)) →
          step s = exec (decodeByte (payloadContext c) p.srcData) c)) ∧
      (s.srcReq = true → p.srcFail = false → p.srcValid = false → step s = .next c) ∧
      (s.phase = .dispatch → p.dispatchNow = true → step s = exec (decodeByte .boundary s.op) c) ∧
      (s.phase = .dispatch → p.dispatchNow = false → step s = .next c))

/-- The frame buffer read port at a clock edge (46_bytesource_and_host.md R162; the pending reads are log 6). Beside the
other events of the edge, which give `u`, the oldest pending read may be answered: with the byte if its address is below
`NB` and `BUSY` was 0 from its request on, otherwise with a fresh free value (log 5). A read requested now is specified
only if `BUSY` is 0 before and after the edge, and an accepted `START` makes every pending one unspecified. That every edge
with `fb_ren = 1` is a request of its own is the model's choice (DESIGN CHOICE, log 28). -/
def Obligations.ClockEdgeReads : Prop :=
  ∀ (s u : State) (p : Pins) (moves : List HostMove), s.host = .script (.edge p :: moves) → p.rst = false →
    step { s with host := .script (.edge { p with readNow := false } :: moves) } = .next u →
    u.readOut = none ∧ u.fbRvalid = false ∧
    (p.readNow = false → step s = .next u) ∧
    (p.readNow = true → u.pendingReads = [] → step s = .next u) ∧
    (p.readNow = true → ∀ r rest, u.pendingReads = r :: rest →
      (r.stable = true ∧ r.addr.toNat < Config.NB →
        step s = .next { u with readOut := some (fbRead u r.addr.toNat), pendingReads := rest }) ∧
      (¬ (r.stable = true ∧ r.addr.toNat < Config.NB) →
        step s = .next { u with
          readOut := some (Config.readDraw u.readDraws), readDraws := u.readDraws + 1, pendingReads := rest })) ∧
    (p.fbRen = true → s.pendingReads = [] →
      u.pendingReads = [{ addr := p.fbRaddr, stable := !s.busy && !u.busy }]) ∧
    (p.fbRen = false → s.phase ≠ .idle ∨ p.cmdValid = false → u.pendingReads = s.pendingReads) ∧
    (p.fbRen = false → s.phase = .idle → p.cmdValid = true → u.pendingReads = s.pendingReads.map PendingRead.spoil)
end

