-- ==== Sys2Proof/Laws/Decode.lean ====
section
/-! SUPPORT. The fields of a run byte and the opcode bytes, one lemma each (30_encoding.md R72, R73). -/

namespace Sys2Proof

theorem runLength_encodeRun : ∀ (n : BitVec 7) (v : Bool), runLength (encodeRun n v) = n := by decide

theorem runValue_encodeRun : ∀ (n : BitVec 7) (v : Bool), runValue (encodeRun n v) = v := by decide

theorem encodeRun_fields : ∀ b : Byte, encodeRun (runLength b) (runValue b) = b := by decide

/-- A run length is at most 127 (00_scope.md R9, R16). -/
theorem runLength_le (n : BitVec 7) : n.toNat ≤ Config.NMAX := by
  have := n.isLt
  unfold Config.NMAX
  omega

/-- An opcode byte from 6 on is an unknown one (40_dispatcher.md R97). -/
theorem classify_unk {x : Byte} (h : 6 ≤ x.toNat) : classify x = .unk x := by
  have hne : ∀ k : Byte, k.toNat < 6 → x ≠ k := fun k hk hx => by subst hx; omega
  unfold classify
  rw [if_neg (hne _ (by decide)), if_neg (hne _ (by decide)), if_neg (hne _ (by decide)), if_neg (hne _ (by decide)),
    if_neg (hne _ (by decide)), if_neg (hne _ (by decide))]

/-- The seven classes of opcode bytes (40_dispatcher.md R97). -/
theorem classify_cases (x : Byte) :
    (x = 0x00#8 ∧ classify x = .blank) ∨ (x = 0x01#8 ∧ classify x = .raw) ∨ (x = 0x02#8 ∧ classify x = .rle) ∨
    (x = 0x03#8 ∧ classify x = .xrle) ∨ (x = 0x04#8 ∧ classify x = .clr0) ∨ (x = 0x05#8 ∧ classify x = .clr1) ∨
    (6 ≤ x.toNat ∧ classify x = .unk x) := by
  by_cases h : 6 ≤ x.toNat
  · simp [classify_unk h, h]
  · have : ∀ x : Byte, x.toNat < 6 → x = 0#8 ∨ x = 1#8 ∨ x = 2#8 ∨ x = 3#8 ∨ x = 4#8 ∨ x = 5#8 := by decide
    rcases this x (by omega) with rfl | rfl | rfl | rfl | rfl | rfl <;> decide

end Sys2Proof
end

