-- ==== Sys2Proof/Laws/Memory.lean ====
section
/-! SUPPORT. The laws of the memory: read after write, and every operation keeps the canonical form, in which equal
contents are equal lists. -/

namespace Sys2Proof.Machine

theorem Memory.get?_set_same (m : List Host.Cell) (j : Nat) (v : Byte) :
    Memory.get? (Memory.set m j v) j = some v := by
  induction m with
  | nil => simp [Memory.set, Memory.get?]
  | cons c m ih =>
    obtain ⟨a, b⟩ := c
    unfold Memory.set
    split
    · simp [Memory.get?]
    · split
      · rename_i h; simp [Memory.get?, h]
      · rename_i h; simp [Memory.get?, h, ih]

theorem Memory.get?_set_other (m : List Host.Cell) {i j : Nat} (v : Byte) (h : i ≠ j) :
    Memory.get? (Memory.set m j v) i = Memory.get? m i := by
  induction m with
  | nil => simp [Memory.set, Memory.get?, h]
  | cons c m ih =>
    obtain ⟨a, b⟩ := c
    unfold Memory.set
    split
    · simp [Memory.get?, h]
    · split
      · rename_i hja; subst hja; simp [Memory.get?, h]
      · simp [Memory.get?, ih]

theorem Memory.mem_set {m : List Host.Cell} {j : Nat} {v : Byte} {c : Host.Cell} (h : c ∈ Memory.set m j v) :
    c = (j, v) ∨ c ∈ m := by
  induction m with
  | nil => simpa [Memory.set] using h
  | cons d m ih =>
    obtain ⟨a, b⟩ := d
    unfold Memory.set at h
    split at h
    · simpa using h
    · split at h
      · rename_i hja
        rcases List.mem_cons.1 h with h | h
        · left; rw [h, hja]
        · right; exact List.mem_cons_of_mem _ h
      · rcases List.mem_cons.1 h with h | h
        · right; simp [h]
        · exact (ih h).imp id (List.mem_cons_of_mem _)

/-- A write inside the frame buffer keeps the canonical form. -/
theorem Memory.set_wf {m : List Host.Cell} {j : Nat} (v : Byte) (hm : Memory.wf m) (hj : j < Config.NB) :
    Memory.wf (Memory.set m j v) := by
  refine ⟨?_, fun c hc => ?_⟩
  · obtain ⟨hp, -⟩ := hm
    induction m with
    | nil => simp [Memory.set]
    | cons d m ih =>
      obtain ⟨a, b⟩ := d
      obtain ⟨ha, hp⟩ := List.pairwise_cons.1 hp
      unfold Memory.set
      split
      · rename_i hlt
        refine List.pairwise_cons.2 ⟨fun c hc => ?_, List.pairwise_cons.2 ⟨ha, hp⟩⟩
        rcases List.mem_cons.1 hc with hc | hc
        · simpa [hc] using hlt
        · exact lt_trans hlt (ha c hc)
      · split
        · exact List.pairwise_cons.2 ⟨ha, hp⟩
        · rename_i h1 h2
          refine List.pairwise_cons.2 ⟨fun c hc => ?_, ih hp⟩
          rcases Memory.mem_set hc with hc | hc
          · simp only [hc]; omega
          · exact ha c hc
  · rcases Memory.mem_set hc with hc | hc
    · simpa [hc] using hj
    · exact hm.2 c hc

theorem Memory.mem_filledFrom {v : Byte} {n j : Nat} {c : Host.Cell} (h : c ∈ Memory.filledFrom v n j) :
    j ≤ c.1 ∧ c.1 < j + n := by
  induction n generalizing j with
  | zero => cases h
  | succ n ih =>
    rcases List.mem_cons.1 h with rfl | h
    · exact ⟨le_refl _, by show j < _; omega⟩
    · have := ih h; omega

theorem Memory.filledFrom_pairwise (v : Byte) (n j : Nat) :
    (Memory.filledFrom v n j).Pairwise (fun c d => c.1 < d.1) := by
  induction n generalizing j with
  | zero => exact List.Pairwise.nil
  | succ n ih => exact List.pairwise_cons.2 ⟨fun c hc => (Memory.mem_filledFrom hc).1, ih (j + 1)⟩

theorem Memory.filled_wf (v : Byte) : Memory.wf (Memory.filled v) :=
  ⟨Memory.filledFrom_pairwise v _ _, fun c hc => by have := (Memory.mem_filledFrom hc).2; omega⟩

theorem Memory.get?_filledFrom (v : Byte) {n j i : Nat} (h : j ≤ i ∧ i < j + n) :
    Memory.get? (Memory.filledFrom v n j) i = some v := by
  induction n generalizing j with
  | zero => omega
  | succ n ih =>
    unfold Memory.filledFrom Memory.get?
    split
    · rfl
    · exact ih (by omega)

/-- Every byte of the frame buffer reads as the fill value. -/
theorem Memory.get?_filled (v : Byte) {j : Nat} (hj : j < Config.NB) : Memory.get? (Memory.filled v) j = some v :=
  Memory.get?_filledFrom v (by omega)

theorem Memory.nil_wf : Memory.wf [] := ⟨List.Pairwise.nil, fun _ hc => by cases hc⟩

theorem Memory.get?_eq_none_of_lt {m : List Host.Cell} {j : Nat} (h : ∀ c ∈ m, j < c.1) : Memory.get? m j = none := by
  induction m with
  | nil => rfl
  | cons c m ih =>
    have hc := h c (List.mem_cons_self ..)
    simp only [Memory.get?, show j ≠ c.1 by omega, if_false]
    exact ih fun d hd => h d (List.mem_cons_of_mem _ hd)

/-- Equal contents are equal lists. -/
theorem Memory.ext_of_wf {m n : List Host.Cell} (hm : Memory.wf m) (hn : Memory.wf n)
    (h : ∀ j, Memory.get? m j = Memory.get? n j) : m = n := by
  obtain ⟨hm, -⟩ := hm
  obtain ⟨hn, -⟩ := hn
  induction m generalizing n with
  | nil =>
    cases n with
    | nil => rfl
    | cons d n => simpa [Memory.get?] using h d.1
  | cons c m ih =>
    cases n with
    | nil => simpa [Memory.get?] using h c.1
    | cons d n =>
      obtain ⟨hc, hm⟩ := List.pairwise_cons.1 hm
      obtain ⟨hd, hn⟩ := List.pairwise_cons.1 hn
      have hcd : c.1 = d.1 := by
        rcases Nat.lt_trichotomy c.1 d.1 with hlt | heq | hgt
        · have := h c.1
          rw [Memory.get?_eq_none_of_lt (m := d :: n)] at this
          · simp [Memory.get?] at this
          · intro e he
            rcases List.mem_cons.1 he with rfl | he
            · exact hlt
            · exact lt_trans hlt (hd e he)
        · exact heq
        · have := h d.1
          rw [Memory.get?_eq_none_of_lt (m := c :: m)] at this
          · simp [Memory.get?] at this
          · intro e he
            rcases List.mem_cons.1 he with rfl | he
            · exact hgt
            · exact lt_trans hgt (hc e he)
      have hv : c.2 = d.2 := by simpa [Memory.get?, hcd] using h c.1
      have htail : m = n := by
        refine ih (fun j => ?_) hm hn
        by_cases hj : j = c.1
        · rw [Memory.get?_eq_none_of_lt (by simpa [hj] using hc),
            Memory.get?_eq_none_of_lt (by simpa [hj, hcd] using hd)]
        · simpa [Memory.get?, hj, hcd ▸ hj] using h j
      rw [htail, Prod.ext hcd hv]

end Sys2Proof.Machine
end

