-- ==== Sys2Proof/Laws/PerInstr.lean ====
section
/-! SUPPORT. What holds of every instruction as syntax, one lemma per constructor. -/

namespace Sys2Proof.Laws.OneByte

/-- An instruction is one byte of the stream, and that byte, read where the instruction stands, is the instruction
(30_encoding.md R72, R73, R74, R76). -/
def Statement (i : Instr) : Prop := i.wellFormed = true → ∃ b : Byte, encode i = [b] ∧ decodeByte i.context b = i

theorem blank : Statement .blank := fun _ => ⟨_, rfl, rfl⟩

theorem raw : Statement .raw := fun _ => ⟨_, rfl, rfl⟩

theorem rle : Statement .rle := fun _ => ⟨_, rfl, rfl⟩

theorem xrle : Statement .xrle := fun _ => ⟨_, rfl, rfl⟩

theorem clr0 : Statement .clr0 := fun _ => ⟨_, rfl, rfl⟩

theorem clr1 : Statement .clr1 := fun _ => ⟨_, rfl, rfl⟩

theorem unk (op : Byte) : Statement (.unk op) := fun h => ⟨op, rfl, classify_unk (of_decide_eq_true h)⟩

theorem run (n : BitVec 7) (v : Bool) : Statement (.run n v) := fun _ =>
  ⟨encodeRun n v, rfl, by simp [Instr.context, decodeByte, runLength_encodeRun, runValue_encodeRun]⟩

theorem xrun (n : BitVec 7) (v : Bool) : Statement (.xrun n v) := fun _ =>
  ⟨encodeRun n v, rfl, by simp [Instr.context, decodeByte, runLength_encodeRun, runValue_encodeRun]⟩

theorem rawb (d : Byte) : Statement (.rawb d) := fun _ => ⟨d, rfl, rfl⟩

end Sys2Proof.Laws.OneByte
end

