-- ==== Sys2Proof/Laws/State.lean ====
section
/-! SUPPORT. One lemma per field for each named update of the state, so that no proof unfolds a record update. -/

namespace Sys2Proof.Machine

/-! ### fbWrite -/

@[simp] theorem fbWrite_fb (j : Nat) (v : Byte) (s : State) : (fbWrite j v s).fb = Memory.set s.fb j v := rfl
@[simp] theorem fbWrite_cursor (j : Nat) (v : Byte) (s : State) : (fbWrite j v s).cursor = s.cursor := rfl
@[simp] theorem fbWrite_phase (j : Nat) (v : Byte) (s : State) : (fbWrite j v s).phase = s.phase := rfl
@[simp] theorem fbWrite_mode (j : Nat) (v : Byte) (s : State) : (fbWrite j v s).mode = s.mode := rfl
@[simp] theorem fbWrite_op (j : Nat) (v : Byte) (s : State) : (fbWrite j v s).op = s.op := rfl
@[simp] theorem fbWrite_ridx (j : Nat) (v : Byte) (s : State) : (fbWrite j v s).ridx = s.ridx := rfl
@[simp] theorem fbWrite_done (j : Nat) (v : Byte) (s : State) : (fbWrite j v s).done = s.done := rfl
@[simp] theorem fbWrite_fault (j : Nat) (v : Byte) (s : State) : (fbWrite j v s).fault = s.fault := rfl
@[simp] theorem fbWrite_unk (j : Nat) (v : Byte) (s : State) : (fbWrite j v s).unk = s.unk := rfl
@[simp] theorem fbWrite_sf (j : Nat) (v : Byte) (s : State) : (fbWrite j v s).sf = s.sf := rfl
@[simp] theorem fbWrite_fcode (j : Nat) (v : Byte) (s : State) : (fbWrite j v s).fcode = s.fcode := rfl
@[simp] theorem fbWrite_fbEpoch (j : Nat) (v : Byte) (s : State) : (fbWrite j v s).fbEpoch = s.fbEpoch := rfl
@[simp] theorem fbWrite_readDraws (j : Nat) (v : Byte) (s : State) : (fbWrite j v s).readDraws = s.readDraws := rfl
@[simp] theorem fbWrite_readOut (j : Nat) (v : Byte) (s : State) : (fbWrite j v s).readOut = s.readOut := rfl
@[simp] theorem fbWrite_pendingReads (j : Nat) (v : Byte) (s : State) : (fbWrite j v s).pendingReads = s.pendingReads := rfl
@[simp] theorem fbWrite_source (j : Nat) (v : Byte) (s : State) : (fbWrite j v s).source = s.source := rfl
@[simp] theorem fbWrite_host (j : Nat) (v : Byte) (s : State) : (fbWrite j v s).host = s.host := rfl
@[simp] theorem fbWrite_shown (j : Nat) (v : Byte) (s : State) : (fbWrite j v s).shown = s.shown := rfl

/-! ### fbFill -/

@[simp] theorem fbFill_fb (v : Byte) (s : State) : (fbFill v s).fb = Memory.filled v := rfl
@[simp] theorem fbFill_cursor (v : Byte) (s : State) : (fbFill v s).cursor = s.cursor := rfl
@[simp] theorem fbFill_phase (v : Byte) (s : State) : (fbFill v s).phase = s.phase := rfl
@[simp] theorem fbFill_mode (v : Byte) (s : State) : (fbFill v s).mode = s.mode := rfl
@[simp] theorem fbFill_op (v : Byte) (s : State) : (fbFill v s).op = s.op := rfl
@[simp] theorem fbFill_ridx (v : Byte) (s : State) : (fbFill v s).ridx = s.ridx := rfl
@[simp] theorem fbFill_done (v : Byte) (s : State) : (fbFill v s).done = s.done := rfl
@[simp] theorem fbFill_fault (v : Byte) (s : State) : (fbFill v s).fault = s.fault := rfl
@[simp] theorem fbFill_unk (v : Byte) (s : State) : (fbFill v s).unk = s.unk := rfl
@[simp] theorem fbFill_sf (v : Byte) (s : State) : (fbFill v s).sf = s.sf := rfl
@[simp] theorem fbFill_fcode (v : Byte) (s : State) : (fbFill v s).fcode = s.fcode := rfl
@[simp] theorem fbFill_fbEpoch (v : Byte) (s : State) : (fbFill v s).fbEpoch = s.fbEpoch := rfl
@[simp] theorem fbFill_readDraws (v : Byte) (s : State) : (fbFill v s).readDraws = s.readDraws := rfl
@[simp] theorem fbFill_readOut (v : Byte) (s : State) : (fbFill v s).readOut = s.readOut := rfl
@[simp] theorem fbFill_pendingReads (v : Byte) (s : State) : (fbFill v s).pendingReads = s.pendingReads := rfl
@[simp] theorem fbFill_source (v : Byte) (s : State) : (fbFill v s).source = s.source := rfl
@[simp] theorem fbFill_host (v : Byte) (s : State) : (fbFill v s).host = s.host := rfl
@[simp] theorem fbFill_shown (v : Byte) (s : State) : (fbFill v s).shown = s.shown := rfl

/-! ### frameEnd -/

@[simp] theorem frameEnd_fb (s : State) : (frameEnd s).fb = s.fb := rfl
@[simp] theorem frameEnd_cursor (s : State) : (frameEnd s).cursor = s.cursor := rfl
@[simp] theorem frameEnd_phase (s : State) : (frameEnd s).phase = .idle := rfl
@[simp] theorem frameEnd_mode (s : State) : (frameEnd s).mode = s.mode := rfl
@[simp] theorem frameEnd_op (s : State) : (frameEnd s).op = s.op := rfl
@[simp] theorem frameEnd_ridx (s : State) : (frameEnd s).ridx = s.ridx := rfl
@[simp] theorem frameEnd_done (s : State) : (frameEnd s).done = true := rfl
@[simp] theorem frameEnd_fault (s : State) : (frameEnd s).fault = s.fault := rfl
@[simp] theorem frameEnd_unk (s : State) : (frameEnd s).unk = s.unk := rfl
@[simp] theorem frameEnd_sf (s : State) : (frameEnd s).sf = s.sf := rfl
@[simp] theorem frameEnd_fcode (s : State) : (frameEnd s).fcode = s.fcode := rfl
@[simp] theorem frameEnd_fbEpoch (s : State) : (frameEnd s).fbEpoch = s.fbEpoch := rfl
@[simp] theorem frameEnd_readDraws (s : State) : (frameEnd s).readDraws = s.readDraws := rfl
@[simp] theorem frameEnd_readOut (s : State) : (frameEnd s).readOut = s.readOut := rfl
@[simp] theorem frameEnd_pendingReads (s : State) : (frameEnd s).pendingReads = s.pendingReads := rfl
@[simp] theorem frameEnd_source (s : State) : (frameEnd s).source = s.source := rfl
@[simp] theorem frameEnd_host (s : State) : (frameEnd s).host = s.host := rfl
@[simp] theorem frameEnd_shown (s : State) : (frameEnd s).shown = s.shown := rfl

/-! ### raiseFault -/

@[simp] theorem raiseFault_fb (c : FaultCode) (s : State) : (raiseFault c s).fb = s.fb := rfl
@[simp] theorem raiseFault_cursor (c : FaultCode) (s : State) : (raiseFault c s).cursor = s.cursor := rfl
@[simp] theorem raiseFault_phase (c : FaultCode) (s : State) : (raiseFault c s).phase = .idle := rfl
@[simp] theorem raiseFault_mode (c : FaultCode) (s : State) : (raiseFault c s).mode = s.mode := rfl
@[simp] theorem raiseFault_op (c : FaultCode) (s : State) : (raiseFault c s).op = s.op := rfl
@[simp] theorem raiseFault_ridx (c : FaultCode) (s : State) : (raiseFault c s).ridx = s.ridx := rfl
@[simp] theorem raiseFault_done (c : FaultCode) (s : State) : (raiseFault c s).done = s.done := rfl
@[simp] theorem raiseFault_fault (c : FaultCode) (s : State) : (raiseFault c s).fault = true := rfl
@[simp] theorem raiseFault_unk (c : FaultCode) (s : State) : (raiseFault c s).unk = s.unk := rfl
@[simp] theorem raiseFault_sf (c : FaultCode) (s : State) : (raiseFault c s).sf = true := rfl
@[simp] theorem raiseFault_fcode (c : FaultCode) (s : State) : (raiseFault c s).fcode = c := rfl
@[simp] theorem raiseFault_fbEpoch (c : FaultCode) (s : State) : (raiseFault c s).fbEpoch = s.fbEpoch := rfl
@[simp] theorem raiseFault_readDraws (c : FaultCode) (s : State) : (raiseFault c s).readDraws = s.readDraws := rfl
@[simp] theorem raiseFault_readOut (c : FaultCode) (s : State) : (raiseFault c s).readOut = s.readOut := rfl
@[simp] theorem raiseFault_pendingReads (c : FaultCode) (s : State) : (raiseFault c s).pendingReads = s.pendingReads := rfl
@[simp] theorem raiseFault_source (c : FaultCode) (s : State) : (raiseFault c s).source = s.source := rfl
@[simp] theorem raiseFault_host (c : FaultCode) (s : State) : (raiseFault c s).host = s.host := rfl
@[simp] theorem raiseFault_shown (c : FaultCode) (s : State) : (raiseFault c s).shown = s.shown := rfl

/-! ### startFrame -/

@[simp] theorem startFrame_fb (b : Byte) (s : State) : (startFrame b s).fb = s.fb := rfl
@[simp] theorem startFrame_cursor (b : Byte) (s : State) : (startFrame b s).cursor = s.cursor := rfl
@[simp] theorem startFrame_phase (b : Byte) (s : State) : (startFrame b s).phase = .dispatch := rfl
@[simp] theorem startFrame_mode (b : Byte) (s : State) : (startFrame b s).mode = s.mode := rfl
@[simp] theorem startFrame_op (b : Byte) (s : State) : (startFrame b s).op = b := rfl
@[simp] theorem startFrame_ridx (b : Byte) (s : State) : (startFrame b s).ridx = s.ridx := rfl
@[simp] theorem startFrame_done (b : Byte) (s : State) : (startFrame b s).done = false := rfl
@[simp] theorem startFrame_fault (b : Byte) (s : State) : (startFrame b s).fault = false := rfl
@[simp] theorem startFrame_unk (b : Byte) (s : State) : (startFrame b s).unk = false := rfl
@[simp] theorem startFrame_sf (b : Byte) (s : State) : (startFrame b s).sf = s.sf := rfl
@[simp] theorem startFrame_fcode (b : Byte) (s : State) : (startFrame b s).fcode = .noFault := rfl
@[simp] theorem startFrame_fbEpoch (b : Byte) (s : State) : (startFrame b s).fbEpoch = s.fbEpoch := rfl
@[simp] theorem startFrame_readDraws (b : Byte) (s : State) : (startFrame b s).readDraws = s.readDraws := rfl
@[simp] theorem startFrame_readOut (b : Byte) (s : State) : (startFrame b s).readOut = s.readOut := rfl
@[simp] theorem startFrame_pendingReads (b : Byte) (s : State) : (startFrame b s).pendingReads = s.pendingReads.map PendingRead.spoil := rfl
@[simp] theorem startFrame_source (b : Byte) (s : State) : (startFrame b s).source = s.source := rfl
@[simp] theorem startFrame_host (b : Byte) (s : State) : (startFrame b s).host = s.host := rfl
@[simp] theorem startFrame_shown (b : Byte) (s : State) : (startFrame b s).shown = s.shown := rfl

/-! ### beginPass -/

@[simp] theorem beginPass_fb (m : Mode) (s : State) : (beginPass m s).fb = s.fb := rfl
@[simp] theorem beginPass_cursor (m : Mode) (s : State) : (beginPass m s).cursor = 0#13 := rfl
@[simp] theorem beginPass_phase (m : Mode) (s : State) : (beginPass m s).phase = .run := rfl
@[simp] theorem beginPass_mode (m : Mode) (s : State) : (beginPass m s).mode = m := rfl
@[simp] theorem beginPass_op (m : Mode) (s : State) : (beginPass m s).op = s.op := rfl
@[simp] theorem beginPass_ridx (m : Mode) (s : State) : (beginPass m s).ridx = s.ridx := rfl
@[simp] theorem beginPass_done (m : Mode) (s : State) : (beginPass m s).done = s.done := rfl
@[simp] theorem beginPass_fault (m : Mode) (s : State) : (beginPass m s).fault = s.fault := rfl
@[simp] theorem beginPass_unk (m : Mode) (s : State) : (beginPass m s).unk = s.unk := rfl
@[simp] theorem beginPass_sf (m : Mode) (s : State) : (beginPass m s).sf = s.sf := rfl
@[simp] theorem beginPass_fcode (m : Mode) (s : State) : (beginPass m s).fcode = s.fcode := rfl
@[simp] theorem beginPass_fbEpoch (m : Mode) (s : State) : (beginPass m s).fbEpoch = s.fbEpoch := rfl
@[simp] theorem beginPass_readDraws (m : Mode) (s : State) : (beginPass m s).readDraws = s.readDraws := rfl
@[simp] theorem beginPass_readOut (m : Mode) (s : State) : (beginPass m s).readOut = s.readOut := rfl
@[simp] theorem beginPass_pendingReads (m : Mode) (s : State) : (beginPass m s).pendingReads = s.pendingReads := rfl
@[simp] theorem beginPass_source (m : Mode) (s : State) : (beginPass m s).source = s.source := rfl
@[simp] theorem beginPass_host (m : Mode) (s : State) : (beginPass m s).host = s.host := rfl
@[simp] theorem beginPass_shown (m : Mode) (s : State) : (beginPass m s).shown = s.shown := rfl

/-! ### resetEvent -/

@[simp] theorem resetEvent_fb (s : State) : (resetEvent s).fb = [] := rfl
@[simp] theorem resetEvent_cursor (s : State) : (resetEvent s).cursor = 0#13 := rfl
@[simp] theorem resetEvent_phase (s : State) : (resetEvent s).phase = .idle := rfl
@[simp] theorem resetEvent_mode (s : State) : (resetEvent s).mode = .ovr := rfl
@[simp] theorem resetEvent_op (s : State) : (resetEvent s).op = 0x00#8 := rfl
@[simp] theorem resetEvent_ridx (s : State) : (resetEvent s).ridx = 0#10 := rfl
@[simp] theorem resetEvent_done (s : State) : (resetEvent s).done = false := rfl
@[simp] theorem resetEvent_fault (s : State) : (resetEvent s).fault = false := rfl
@[simp] theorem resetEvent_unk (s : State) : (resetEvent s).unk = false := rfl
@[simp] theorem resetEvent_sf (s : State) : (resetEvent s).sf = false := rfl
@[simp] theorem resetEvent_fcode (s : State) : (resetEvent s).fcode = .noFault := rfl
@[simp] theorem resetEvent_fbEpoch (s : State) : (resetEvent s).fbEpoch = s.fbEpoch + 1 := rfl
@[simp] theorem resetEvent_readDraws (s : State) : (resetEvent s).readDraws = s.readDraws := rfl
@[simp] theorem resetEvent_readOut (s : State) : (resetEvent s).readOut = s.readOut := rfl
@[simp] theorem resetEvent_pendingReads (s : State) : (resetEvent s).pendingReads = s.pendingReads := rfl
@[simp] theorem resetEvent_source (s : State) : (resetEvent s).source = if s.srcReq then withdrawPull s.fbEpoch s.source else s.source := rfl
@[simp] theorem resetEvent_host (s : State) : (resetEvent s).host = s.host := rfl
@[simp] theorem resetEvent_shown (s : State) : (resetEvent s).shown = s.shown := rfl

/-! ### The read port -/

@[simp] theorem PendingRead.spoil_addr (r : PendingRead) : r.spoil.addr = r.addr := rfl
@[simp] theorem PendingRead.spoil_stable (r : PendingRead) : r.spoil.stable = false := rfl

end Sys2Proof.Machine
end

