-- ==== Sys2Proof/Laws/Pixels.lean ====
section
/-! SUPPORT. The access primitives, the masks and the combine function, pixel by pixel (20_memory.md R52,
42_bitpacker.md R111, R121). -/

namespace Sys2Proof.Machine

theorem P_value : Config.P = 5120 := rfl
theorem NB_value : Config.NB = 640 := rfl

/-! ### Bytes -/

@[simp] theorem fbRead_fbWrite_same (j : Nat) (v : Byte) (s : State) : fbRead (fbWrite j v s) j = v := by
  simp [fbRead, Memory.get?_set_same]

theorem fbRead_fbWrite_other {i j : Nat} (h : i ≠ j) (v : Byte) (s : State) :
    fbRead (fbWrite j v s) i = fbRead s i := by
  simp [fbRead, Memory.get?_set_other _ _ h]

theorem fbRead_fbFill {j : Nat} (hj : j < Config.NB) (v : Byte) (s : State) : fbRead (fbFill v s) j = v := by
  simp [fbRead, Memory.get?_filled v hj]

/-- A read depends on the frame buffer and on the number of resets only. -/
theorem fbRead_congr {s t : State} (hfb : t.fb = s.fb) (he : t.fbEpoch = s.fbEpoch) (j : Nat) :
    fbRead t j = fbRead s j := by
  simp [fbRead, hfb, he]

theorem pixGet_congr {s t : State} (hfb : t.fb = s.fb) (he : t.fbEpoch = s.fbEpoch) (i : Nat) :
    pixGet t i = pixGet s i := by
  simp [pixGet, fbRead_congr hfb he]

/-! ### Pixels -/

theorem offset_lt (i : Nat) : offset i < 8 := Nat.mod_lt _ (by decide)

/-- A byte is its eight pixels. -/
theorem byte_ext_pixels {a b : Byte} (h : ∀ p, p < 8 → a.getLsbD (7 - p) = b.getLsbD (7 - p)) : a = b := by
  apply BitVec.eq_of_getLsbD_eq
  intro i hi
  have := h (7 - i) (by omega)
  rwa [show 7 - (7 - i) = i by omega] at this

/-- Pixel `8j + p` is pixel position `p` of byte `j` (20 R51). -/
theorem pixGet_byte (s : State) (j : Nat) {p : Nat} (hp : p < 8) :
    pixGet s (8 * j + p) = (fbRead s j).getLsbD (7 - p) := by
  have h1 : (8 * j + p) / 8 = j := by omega
  have h2 : (8 * j + p) % 8 = p := by omega
  simp [pixGet, byteIndex, offset, h1, h2]

/-- Two states with the same pixels have the same bytes. -/
theorem fbRead_eq_of_pixels {s t : State} {j : Nat}
    (h : ∀ i, 8 * j ≤ i → i < 8 * j + 8 → pixGet t i = pixGet s i) : fbRead t j = fbRead s j :=
  byte_ext_pixels fun p hp => by
    rw [← pixGet_byte t j hp, ← pixGet_byte s j hp]
    exact h _ (by omega) (by omega)

/-- The pixels after one byte write. -/
theorem pixGet_fbWrite (j : Nat) (v : Byte) (s : State) (i : Nat) :
    pixGet (fbWrite j v s) i = if byteIndex i = j then v.getLsbD (7 - offset i) else pixGet s i := by
  unfold pixGet
  split
  · rename_i h; rw [h, fbRead_fbWrite_same]
  · rename_i h; rw [fbRead_fbWrite_other h]

/-! ### Masks (42 R111) -/

theorem mask_pixel_table : ∀ a : Fin 9, ∀ b : Fin 9, a ≤ b → ∀ p : Fin 8,
    (mask a.val b.val).getLsbD (7 - p.val) = decide (a.val ≤ p.val ∧ p.val < b.val) := by decide

/-- `M(a, b)` covers exactly the pixel positions `a` to `b-1`. -/
theorem mask_pixel {a b p : Nat} (hab : a ≤ b) (hb : b ≤ 8) (hp : p < 8) :
    (mask a b).getLsbD (7 - p) = decide (a ≤ p ∧ p < b) :=
  mask_pixel_table ⟨a, by omega⟩ ⟨b, by omega⟩ hab ⟨p, hp⟩

theorem mask_full : mask 0 8 = 0xFF#8 := by decide

/-! ### The combine function (42 R121) -/

/-- Inside the mask the new pixel, outside it the old one. -/
theorem combine_bit (old m : Byte) (v : Bool) (mode : Mode) {i : Nat} (hi : i < 8) :
    (combine old m v mode).getLsbD i
      = if m.getLsbD i then newPixel (old.getLsbD i) v mode else old.getLsbD i := by
  have hnot : (~~~m).getLsbD i = !m.getLsbD i := by simp only [BitVec.getLsbD_not, hi, decide_true, Bool.true_and]
  cases mode <;> cases v <;> cases h : m.getLsbD i <;>
    simp only [combine, newPixel, BitVec.getLsbD_or, BitVec.getLsbD_and, BitVec.getLsbD_xor, hnot, h] <;> simp

/-- In the masked byte the covered pixel positions are combined and the others kept. -/
theorem combine_mask_pixel (old : Byte) (v : Bool) (mode : Mode) {a b p : Nat} (hab : a ≤ b) (hb : b ≤ 8) (hp : p < 8) :
    (combine old (mask a b) v mode).getLsbD (7 - p)
      = if a ≤ p ∧ p < b then newPixel (old.getLsbD (7 - p)) v mode else old.getLsbD (7 - p) := by
  rw [combine_bit _ _ _ _ (by omega), mask_pixel hab hb hp]
  simp

theorem single_mask_table : ∀ q p : Fin 8, (0x80#8 >>> q.val).getLsbD (7 - p.val) = decide (p = q) := by decide

/-- `PixSet(i, v)` writes pixel `i` and no other (20 R52). -/
theorem pixGet_pixSet (i : Nat) (v : Bool) (s : State) (l : Nat) :
    pixGet (pixSet i v s) l = if l = i then v else pixGet s l := by
  have hm : (0x80#8 >>> offset i).getLsbD (7 - offset l) = decide (offset l = offset i) := by
    have := single_mask_table ⟨offset i, offset_lt i⟩ ⟨offset l, offset_lt l⟩
    simpa using this
  have hsame : l = i ↔ byteIndex l = byteIndex i ∧ offset l = offset i := by
    unfold byteIndex offset; omega
  unfold pixSet
  rw [pixGet_fbWrite]
  by_cases hb : byteIndex l = byteIndex i
  · by_cases ho : offset l = offset i
    · simp only [hb, hsame, ho, and_self, if_true]
      simp only [ho] at hm
      cases v <;> simp [hm]
    · simp only [hb, hsame, ho, and_false, if_true, if_false]
      simp only [ho, decide_false] at hm
      cases v <;> simp [hm, pixGet, hb]; omega
  · simp [hb, hsame]

end Sys2Proof.Machine
end

