-- ==== Sys2Proof/Laws/Span.lean ====
section
/-! SUPPORT. What each part of a span write does (42_bitpacker.md R113 to R116): one lemma per part, and the whole. -/

namespace Sys2Proof.Machine

/-! ### Pixel by pixel -/

/-- `ApplySpan` combines the pixels of `[k, k+n)` and no other (R113). -/
theorem pixGet_applySpan (v : Bool) (mode : Mode) (n k : Nat) (s : State) (i : Nat) :
    pixGet (applySpan k v mode n s) i
      = if k ≤ i ∧ i < k + n then newPixel (pixGet s i) v mode else pixGet s i := by
  induction n generalizing k s with
  | zero => simp [applySpan, show ¬ (k ≤ i ∧ i < k) by omega]
  | succ n ih =>
    rw [applySpan, ih, pixGet_pixSet]
    by_cases h : i = k
    · subst h; simp
    · by_cases h2 : k ≤ i ∧ i < k + (n + 1)
      · rw [if_pos (by omega), if_neg h, if_pos h2]
      · rw [if_neg (by omega), if_neg h, if_neg h2]

/-! ### Byte by byte -/

/-- One part of a span write took the working record from `w` to `w'`: the pixels between the two cursors are combined,
the others kept, nothing but the frame buffer of the state changes, and no pixel of the run is lost. -/
structure Advance (v : Bool) (mode : Mode) (w w' : SpanWork) : Prop where
  total : w'.k + w'.rem = w.k + w.rem
  forward : w.k ≤ w'.k
  pixels : ∀ i, pixGet w'.s i = if w.k ≤ i ∧ i < w'.k then newPixel (pixGet w.s i) v mode else pixGet w.s i
  frame : w'.s = { w.s with fb := w'.s.fb }
  wf : w.k + w.rem ≤ Config.P → Memory.wf w.s.fb → Memory.wf w'.s.fb

theorem Advance.refl (v : Bool) (mode : Mode) (w : SpanWork) : Advance v mode w w where
  total := rfl
  forward := le_refl _
  pixels i := by simp [show ¬ (w.k ≤ i ∧ i < w.k) by omega]
  frame := rfl
  wf _ h := h

theorem Advance.trans {v : Bool} {mode : Mode} {a b c : SpanWork} (hab : Advance v mode a b) (hbc : Advance v mode b c) :
    Advance v mode a c where
  total := by rw [hbc.total, hab.total]
  forward := le_trans hab.forward hbc.forward
  pixels i := by
    have h1 := hab.forward
    have h2 := hbc.forward
    rw [hbc.pixels, hab.pixels]
    by_cases ha : a.k ≤ i ∧ i < b.k
    · rw [if_neg (by omega), if_pos ha, if_pos (by omega)]
    · by_cases hb : b.k ≤ i ∧ i < c.k
      · rw [if_pos hb, if_neg ha, if_pos (by omega)]
      · rw [if_neg hb, if_neg ha, if_neg (by omega)]
  frame := by rw [hbc.frame, hab.frame]
  wf hP h := hbc.wf (hab.total ▸ hP) (hab.wf hP h)

/-- One byte write that combines the pixel positions `a` to `b-1` of byte `k div 8`, where `k` stands at position `a`. -/
theorem pixGet_masked_write (s : State) (v : Bool) (mode : Mode) {k b : Nat} (hb : offset k ≤ b) (hb8 : b ≤ 8) (i : Nat) :
    pixGet (fbWrite (byteIndex k) (combine (fbRead s (byteIndex k)) (mask (offset k) b) v mode) s) i
      = if k ≤ i ∧ i < k + (b - offset k) then newPixel (pixGet s i) v mode else pixGet s i := by
  rw [pixGet_fbWrite]
  by_cases hi : byteIndex i = byteIndex k
  · have hpos : (offset k ≤ offset i ∧ offset i < b) ↔ (k ≤ i ∧ i < k + (b - offset k)) := by
      unfold offset byteIndex at *; omega
    rw [if_pos hi, combine_mask_pixel _ _ _ hb hb8 (offset_lt i)]
    simp only [hpos, pixGet, hi]
  · have hno : ¬ (k ≤ i ∧ i < k + (b - offset k)) := by unfold offset byteIndex at *; omega
    rw [if_neg hi, if_neg hno]

theorem byteIndex_lt {k : Nat} (h : k < Config.P) : byteIndex k < Config.NB := by
  simp only [P_value, NB_value] at *; unfold byteIndex; omega

/-- Head (R114). The wf clause needs the cursor below `P`, which a partial byte implies. -/
theorem spanHead_advance (v : Bool) (mode : Mode) (w : SpanWork) : Advance v mode w (spanHead v mode w) := by
  unfold spanHead
  split
  · exact Advance.refl v mode w
  · rename_i ho
    have hlt := offset_lt w.k
    refine ⟨?_, ?_, fun i => ?_, rfl, fun hP h => ?_⟩
    · show w.k + min w.rem (avail w.k) + (w.rem - min w.rem (avail w.k)) = _; omega
    · show w.k ≤ w.k + _; omega
    · rw [pixGet_masked_write _ _ _ (by omega) (by unfold avail; omega)]
      simp only [show offset w.k + min w.rem (avail w.k) - offset w.k = min w.rem (avail w.k) by omega]
    · refine Memory.set_wf _ h (byteIndex_lt ?_)
      simp only [P_value] at *; unfold offset at ho; omega

/-- After the head the run is used up or the cursor stands on a byte boundary (R114). -/
theorem spanHead_aligned (v : Bool) (mode : Mode) (w : SpanWork) :
    (spanHead v mode w).rem = 0 ∨ offset (spanHead v mode w).k = 0 := by
  unfold spanHead
  split
  · exact Or.inr ‹_›
  · show w.rem - min w.rem (avail w.k) = 0 ∨ offset (w.k + min w.rem (avail w.k)) = 0
    unfold avail offset; omega

/-- One whole byte (R115). -/
theorem bodyByte_advance (v : Bool) (mode : Mode) (w : SpanWork) (hk : offset w.k = 0) (hrem : 8 ≤ w.rem) :
    Advance v mode w (bodyByte v mode w) := by
  have hnew : (bodyByte v mode w).s
      = fbWrite (byteIndex w.k) (combine (fbRead w.s (byteIndex w.k)) (mask (offset w.k) 8) v mode) w.s := by
    have hall : ∀ old : Byte, old ||| 255#8 = 255#8 := by decide
    cases mode <;> cases v <;> simp [bodyByte, hk, mask_full, combine, hall]
  refine ⟨?_, ?_, fun i => ?_, rfl, fun hP h => ?_⟩
  · show w.k + 8 + (w.rem - 8) = _; omega
  · show w.k ≤ w.k + 8; omega
  · rw [hnew, pixGet_masked_write _ _ _ (by omega) (le_refl _), hk]; rfl
  · exact Memory.set_wf _ h (byteIndex_lt (by omega))

/-- The body: `count` whole bytes. -/
theorem spanBody_advance (v : Bool) (mode : Mode) (count : Nat) (w : SpanWork) (hk : offset w.k = 0)
    (hrem : 8 * count ≤ w.rem) :
    Advance v mode w (spanBody v mode count w) ∧ (spanBody v mode count w).k = w.k + 8 * count := by
  induction count generalizing w with
  | zero => exact ⟨Advance.refl v mode w, rfl⟩
  | succ count ih =>
    have h1 := bodyByte_advance v mode w hk (by omega)
    obtain ⟨h2, h3⟩ := ih (bodyByte v mode w)
      (by show offset (w.k + 8) = 0; unfold offset at *; omega) (by show _ ≤ w.rem - 8; omega)
    exact ⟨h1.trans h2, h3.trans (by show w.k + 8 + _ = _; omega)⟩

/-- Tail (R116): it finishes the run. -/
theorem spanTail_advance (v : Bool) (mode : Mode) (w : SpanWork) (hk : w.rem = 0 ∨ offset w.k = 0) (hrem : w.rem < 8) :
    Advance v mode w (spanTail v mode w) ∧ (spanTail v mode w).rem = 0 := by
  unfold spanTail
  split
  · exact ⟨Advance.refl v mode w, ‹_›⟩
  · rename_i h0
    have hk0 := hk.resolve_left h0
    refine ⟨⟨?_, ?_, fun i => ?_, rfl, fun hP h => ?_⟩, rfl⟩
    · rfl
    · show w.k ≤ w.k + w.rem; omega
    · have := pixGet_masked_write w.s v mode (k := w.k) (b := w.rem) (by omega) (by omega) i
      simpa [hk0] using this
    · exact Memory.set_wf _ h (byteIndex_lt (by omega))

/-- Head, body and tail together finish the run (R120). -/
theorem spanWork_advance (k n : Nat) (v : Bool) (mode : Mode) (s : State) :
    Advance v mode { s := s, k := k, rem := n } (spanWork k n v mode s) ∧ (spanWork k n v mode s).rem = 0 := by
  unfold spanWork
  have hh := spanHead_advance v mode { s := s, k := k, rem := n }
  have ha := spanHead_aligned v mode { s := s, k := k, rem := n }
  revert hh ha
  generalize spanHead v mode { s := s, k := k, rem := n } = h
  intro hh ha
  rcases ha with h0 | h0
  · have hb : spanBody v mode (h.rem / 8) h = h := by simp [h0, spanBody]
    obtain ⟨ht, hr⟩ := spanTail_advance v mode h (Or.inl h0) (by omega)
    simp only [hb]
    exact ⟨hh.trans ht, hr⟩
  · obtain ⟨hb, hk⟩ := spanBody_advance v mode (h.rem / 8) h h0 (by omega)
    have htot := hb.total
    obtain ⟨ht, hr⟩ := spanTail_advance v mode (spanBody v mode (h.rem / 8) h)
      (Or.inr (by rw [hk]; unfold offset at *; omega)) (by omega)
    exact ⟨hh.trans (hb.trans ht), hr⟩

/-- The pixels after a span write. -/
theorem pixGet_spanWrite (k n : Nat) (v : Bool) (mode : Mode) (s : State) (i : Nat) :
    pixGet (spanWrite k n v mode s) i
      = if k ≤ i ∧ i < k + n then newPixel (pixGet s i) v mode else pixGet s i := by
  obtain ⟨h, hr⟩ := spanWork_advance k n v mode s
  have hk : (spanWork k n v mode s).k = k + n := by simpa [hr] using h.total
  have := h.pixels i
  rwa [hk] at this

/-- A span write changes nothing but the frame buffer. -/
theorem spanWrite_frame (k n : Nat) (v : Bool) (mode : Mode) (s : State) :
    spanWrite k n v mode s = { s with fb := (spanWrite k n v mode s).fb } :=
  (spanWork_advance k n v mode s).1.frame

/-- A span write inside the frame keeps the memory's canonical form. -/
theorem spanWrite_wf {k n : Nat} (v : Bool) (mode : Mode) {s : State} (hP : k + n ≤ Config.P) (h : Memory.wf s.fb) :
    Memory.wf (spanWrite k n v mode s).fb :=
  (spanWork_advance k n v mode s).1.wf hP h

end Sys2Proof.Machine
end

