-- ==== Sys2Proof/Laws/Runs.lean ====
section
/-! SUPPORT. What the meanings do when they answer, once per shared operation, and that the environment's part of the
state plays no role in them (10_state.md R36). -/

namespace Sys2Proof.Machine

/-! ### Inversion of the shared guards -/

theorem atDispatch_next {s t u : State} : atDispatch s t = .next u ↔ s.phase = .dispatch ∧ u = t := by
  unfold atDispatch; split <;> simp_all [eq_comm]

theorem inPass_next {mode : Mode} {s t u : State} :
    inPass mode s t = .next u ↔ (s.phase = .run ∧ s.mode = mode) ∧ u = t := by
  unfold inPass; split <;> simp_all [eq_comm]

theorem execRawb_next {d : Byte} {s u : State} :
    execRawb d s = .next u ↔ s.phase = .raw ∧ s.ridx.toNat < Config.NB ∧ u = copyByte d s := by
  unfold execRawb
  split
  · split <;> simp_all [eq_comm]
  · simp_all

/-! ### One run byte -/

theorem cursor_toNat {k : Nat} (h : k ≤ Config.P) : (BitVec.ofNat 13 k).toNat = k := by
  simp only [P_value] at h
  rw [BitVec.toNat_ofNat]; exact Nat.mod_eq_of_lt (by omega)

theorem ridx_toNat {k : Nat} (h : k ≤ Config.NB) : (BitVec.ofNat 10 k).toNat = k := by
  simp only [NB_value] at h
  rw [BitVec.toNat_ofNat]; exact Nat.mod_eq_of_lt (by omega)

theorem runByte_overrun {n : BitVec 7} {v : Bool} {s : State} (h : Config.P < s.cursor.toNat + n.toNat) :
    runByte n v s = raiseFault .overrun s := by
  unfold runByte; exact if_pos h

theorem runByte_inside {n : BitVec 7} {v : Bool} {s : State} (h : s.cursor.toNat + n.toNat < Config.P) :
    runByte n v s = { spanWrite s.cursor.toNat n.toNat v s.mode s with
      cursor := BitVec.ofNat 13 (s.cursor.toNat + n.toNat) } := by
  unfold runByte
  simp only [if_neg (show ¬ Config.P < s.cursor.toNat + n.toNat by omega),
    if_neg (show ¬ s.cursor.toNat + n.toNat = Config.P by omega)]

theorem runByte_last {n : BitVec 7} {v : Bool} {s : State} (h : s.cursor.toNat + n.toNat = Config.P) :
    runByte n v s = frameEnd { spanWrite s.cursor.toNat n.toNat v s.mode s with
      cursor := BitVec.ofNat 13 (s.cursor.toNat + n.toNat) } := by
  unfold runByte
  simp only [if_neg (show ¬ Config.P < s.cursor.toNat + n.toNat by omega), if_pos h]

/-- What a run byte that does not overrun changes: the frame buffer, the cursor, and at the end of the pass `PHASE` and
`DONE` (43 R126). -/
theorem runByte_frame {n : BitVec 7} {v : Bool} {s : State} (h : s.cursor.toNat + n.toNat ≤ Config.P) :
    runByte n v s = { s with
      fb := (spanWrite s.cursor.toNat n.toNat v s.mode s).fb
      cursor := BitVec.ofNat 13 (s.cursor.toNat + n.toNat)
      phase := if s.cursor.toNat + n.toNat = Config.P then .idle else s.phase
      done := if s.cursor.toNat + n.toNat = Config.P then true else s.done } := by
  by_cases he : s.cursor.toNat + n.toNat = Config.P
  · rw [runByte_last he, spanWrite_frame]; simp only [he, if_true]; rfl
  · rw [runByte_inside (by omega), spanWrite_frame]; simp only [he, if_false]

/-- The pixels after a run byte that does not overrun (43 R127, 44 R136). -/
theorem pixGet_runByte {n : BitVec 7} {v : Bool} {s : State} (h : s.cursor.toNat + n.toNat ≤ Config.P) (i : Nat) :
    pixGet (runByte n v s) i
      = if s.cursor.toNat ≤ i ∧ i < s.cursor.toNat + n.toNat then newPixel (pixGet s i) v s.mode else pixGet s i := by
  have hfb : (runByte n v s).fb = (spanWrite s.cursor.toNat n.toNat v s.mode s).fb := by rw [runByte_frame h]
  have hep : (runByte n v s).fbEpoch = (spanWrite s.cursor.toNat n.toNat v s.mode s).fbEpoch := by
    rw [runByte_frame h, spanWrite_frame]
  rw [pixGet_congr hfb hep, pixGet_spanWrite]

/-- What a raw byte changes (41 R106). -/
theorem copyByte_frame (d : Byte) (s : State) :
    copyByte d s = { s with
      fb := Memory.set s.fb s.ridx.toNat d
      ridx := BitVec.ofNat 10 (s.ridx.toNat + 1)
      phase := if s.ridx.toNat + 1 = Config.NB then .idle else s.phase
      done := if s.ridx.toNat + 1 = Config.NB then true else s.done } := by
  unfold copyByte
  by_cases he : s.ridx.toNat + 1 = Config.NB
  · simp only [he, if_true]; rfl
  · simp only [he, if_false]; rfl

theorem fbRead_copyByte (d : Byte) (s : State) (j : Nat) :
    fbRead (copyByte d s) j = if j = s.ridx.toNat then d else fbRead s j := by
  have : fbRead (copyByte d s) j = fbRead (fbWrite s.ridx.toNat d s) j :=
    fbRead_congr (by rw [copyByte_frame]; rfl) (by rw [copyByte_frame]; rfl) j
  rw [this]
  split
  · rename_i h; rw [h, fbRead_fbWrite_same]
  · rename_i h; rw [fbRead_fbWrite_other h]

/-! ### The environment plays no role -/

/-- `t` is `s` up to the environment's part of the state. -/
def SameCore (s t : State) : Prop :=
  t = { s with
    source := t.source, host := t.host, readDraws := t.readDraws, readOut := t.readOut, pendingReads := t.pendingReads,
    shown := t.shown }

theorem SameCore.refl (s : State) : SameCore s s := rfl

theorem SameCore.trans {s t u : State} (h1 : SameCore s t) (h2 : SameCore t u) : SameCore s u := by
  unfold SameCore at *; rw [h2, h1]

theorem SameCore.symm {s t : State} (h : SameCore s t) : SameCore t s := by
  unfold SameCore at *; rw [h]

/-- The span write depends on the frame buffer and the number of resets only. -/
theorem spanWrite_fb_congr {s t : State} (hfb : t.fb = s.fb) (he : t.fbEpoch = s.fbEpoch) (k n : Nat) (v : Bool)
    (mode : Mode) : (spanWrite k n v mode t).fb = (spanWrite k n v mode s).fb := by
  have hread : ∀ (a b : State), a.fb = b.fb → a.fbEpoch = b.fbEpoch → ∀ j, fbRead a j = fbRead b j :=
    fun a b h1 h2 j => fbRead_congr h1 h2 j
  have hbody : ∀ (c : Nat) (w w' : SpanWork), w.k = w'.k → w.rem = w'.rem → w.s.fb = w'.s.fb →
      w.s.fbEpoch = w'.s.fbEpoch →
      (spanBody v mode c w).k = (spanBody v mode c w').k ∧ (spanBody v mode c w).rem = (spanBody v mode c w').rem ∧
      (spanBody v mode c w).s.fb = (spanBody v mode c w').s.fb ∧
      (spanBody v mode c w).s.fbEpoch = (spanBody v mode c w').s.fbEpoch := by
    intro c
    induction c with
    | zero => intro w w' h1 h2 h3 h4; exact ⟨h1, h2, h3, h4⟩
    | succ c ih =>
      intro w w' h1 h2 h3 h4
      refine ih _ _ ?_ ?_ ?_ ?_
      · show w.k + 8 = w'.k + 8; rw [h1]
      · show w.rem - 8 = w'.rem - 8; rw [h2]
      · simp only [bodyByte, fbWrite_fb, h1, h3, hread _ _ h3 h4]
      · exact h4
  have htail : ∀ (w w' : SpanWork), w.k = w'.k → w.rem = w'.rem → w.s.fb = w'.s.fb → w.s.fbEpoch = w'.s.fbEpoch →
      (spanTail v mode w).s.fb = (spanTail v mode w').s.fb := by
    intro w w' h1 h2 h3 h4
    unfold spanTail
    by_cases h0 : w.rem = 0
    · rw [if_pos h0, if_pos (h2 ▸ h0)]; exact h3
    · rw [if_neg h0, if_neg (h2 ▸ h0)]
      simp only [fbWrite_fb, h1, h2, h3, hread _ _ h3 h4]
  unfold spanWrite spanWork spanHead
  by_cases h0 : offset k = 0
  · simp only [h0, if_true]
    obtain ⟨h1, h2, h3, h4⟩ := hbody (n / 8) ⟨t, k, n⟩ ⟨s, k, n⟩ rfl rfl hfb he
    exact htail _ _ h1 h2 h3 h4
  · simp only [h0, if_false]
    obtain ⟨h1, h2, h3, h4⟩ := hbody ((n - min n (avail k)) / 8)
      ⟨fbWrite (byteIndex k) (combine (fbRead t (byteIndex k)) (mask (offset k) (offset k + min n (avail k))) v mode) t,
        k + min n (avail k), n - min n (avail k)⟩
      ⟨fbWrite (byteIndex k) (combine (fbRead s (byteIndex k)) (mask (offset k) (offset k + min n (avail k))) v mode) s,
        k + min n (avail k), n - min n (avail k)⟩
      rfl rfl (by simp only [fbWrite_fb, hfb, hread t s hfb he]) he
    exact htail _ _ h1 h2 h3 h4

end Sys2Proof.Machine
end

