-- ==== Sys2Proof/Laws/Step.lean ====
section
/-! SUPPORT. All a step can do, said once: up to the environment's part of the state, it is one of seven events of the
CORE. Every claim over steps is a case split over them. -/

namespace Sys2Proof.Machine

/-- The dispatch of each opcode, as one function (40_dispatcher.md R91). -/
def dispatchEffect (s : State) : State :=
  match classify s.op with
  | .blank => frameEnd s
  | .raw => { s with ridx := 0#10, phase := .raw }
  | .rle => beginPass .ovr s
  | .xrle => beginPass .xor s
  | .clr0 => frameEnd (fbFill 0x00#8 s)
  | .clr1 => frameEnd (fbFill 0xFF#8 s)
  | .unk _ => frameEnd { s with unk := true }
  | .run _ _ => s
  | .xrun _ _ => s
  | .rawb _ => s

theorem exec_classify {s : State} (h : s.phase = .dispatch) : exec (classify s.op) s = .next (dispatchEffect s) := by
  unfold dispatchEffect
  rcases classify_cases s.op with ⟨-, hc⟩ | ⟨-, hc⟩ | ⟨-, hc⟩ | ⟨-, hc⟩ | ⟨-, hc⟩ | ⟨-, hc⟩ | ⟨-, hc⟩ <;>
    simp only [hc] <;> exact if_pos h

/-- One event of the CORE. -/
inductive CoreEvent (s : State) : State → Prop
  | quiet : CoreEvent s s
  | start (h : s.phase = .idle) (op : Byte) : CoreEvent s (startFrame op s)
  | reset : CoreEvent s (resetEvent s)
  | dispatch (h : s.phase = .dispatch) : CoreEvent s (dispatchEffect s)
  | trunc (h : s.phase = .raw ∨ s.phase = .run) : CoreEvent s (raiseFault .trunc s)
  | copy (h : s.phase = .raw) (hlt : s.ridx.toNat < Config.NB) (d : Byte) : CoreEvent s (copyByte d s)
  | run (h : s.phase = .run) (n : BitVec 7) (v : Bool) : CoreEvent s (runByte n v s)

theorem srcReq_iff {s : State} : s.srcReq = true ↔ s.phase = .raw ∨ s.phase = .run := by simp [State.srcReq]

theorem payloadStep_run {s : State} (h : s.phase = .run) (b : Byte) :
    payloadStep (some (.byte b)) s = .next (runByte (runLength b) (runValue b) s) := by
  cases hm : s.mode <;> simp [payloadStep, payloadContext, decodeByte, exec, execRun, execXrun, inPass, h, hm]

theorem payloadStep_raw {s : State} (h : s.phase = .raw) (b : Byte) :
    payloadStep (some (.byte b)) s
      = if s.ridx.toNat < Config.NB then .next (copyByte b s) else .fault .fbAddress := by
  cases hm : s.mode <;> simp [payloadStep, payloadContext, decodeByte, exec, execRawb, h]

/-- What a CORE step answers, by phase. -/
theorem coreStep_event {a : Option Answer} {s t : State} (h : coreStep a s = .next t) : CoreEvent s t := by
  unfold coreStep at h
  split at h
  · cases h; exact .quiet
  · rename_i hp
    rw [show decodeByte .boundary s.op = classify s.op from rfl, exec_classify hp] at h
    cases h; exact .dispatch hp
  · rename_i hp
    match a with
    | none => cases h; exact .quiet
    | some .fail => cases h; exact .trunc (Or.inl hp)
    | some (.byte b) =>
      rw [payloadStep_raw hp] at h
      split at h
      · cases h; exact .copy hp ‹_› b
      · cases h
  · rename_i hp
    match a with
    | none => cases h; exact .quiet
    | some .fail => cases h; exact .trunc (Or.inr hp)
    | some (.byte b) => rw [payloadStep_run hp] at h; cases h; exact .run hp _ _

/-! ### A CORE step in a payload, and the source -/

/-- What a CORE step does in a payload: wait, fault, copy a byte, or apply a run. -/
theorem coreStep_payload {a : Option Answer} {s t : State} (hs : s.srcReq = true) (h : coreStep a s = .next t) :
    t = s ∨ t = raiseFault .trunc s ∨ (∃ d, s.phase = .raw ∧ t = copyByte d s) ∨
      ∃ n v, s.phase = .run ∧ t = runByte n v s := by
  rcases srcReq_iff.1 hs with hp | hp
  · match a with
    | none => simp [coreStep, hp, payloadStep] at h; simp [h]
    | some .fail => simp [coreStep, hp, payloadStep] at h; simp [h]
    | some (.byte b) =>
      rw [show coreStep (some (.byte b)) s = payloadStep (some (.byte b)) s by simp [coreStep, hp], payloadStep_raw hp] at h
      split at h <;> cases h
      exact Or.inr (Or.inr (Or.inl ⟨b, hp, rfl⟩))
  · match a with
    | none => simp [coreStep, hp, payloadStep] at h; simp [h]
    | some .fail => simp [coreStep, hp, payloadStep] at h; simp [h]
    | some (.byte b) =>
      rw [show coreStep (some (.byte b)) s = payloadStep (some (.byte b)) s by simp [coreStep, hp], payloadStep_run hp] at h
      cases h
      exact Or.inr (Or.inr (Or.inr ⟨_, _, hp, rfl⟩))

theorem runByte_source (n : BitVec 7) (v : Bool) (s : State) : (runByte n v s).source = s.source := by
  by_cases hov : s.cursor.toNat + n.toNat ≤ Config.P
  · rw [runByte_frame hov]
  · rw [runByte_overrun (by omega)]; rfl

/-- A CORE step leaves the source as the turn handed it over. -/
theorem coreStep_source {a : Option Answer} {s t : State} (h : coreStep a s = .next t) : t.source = s.source := by
  by_cases hs : s.srcReq = true
  · rcases coreStep_payload hs h with rfl | rfl | ⟨d, -, rfl⟩ | ⟨n, v, -, rfl⟩
    · rfl
    · rfl
    · rw [copyByte_frame]
    · exact runByte_source n v s
  · unfold coreStep at h
    split at h <;> rename_i hp
    · cases h; rfl
    · rw [show decodeByte .boundary s.op = classify s.op from rfl, exec_classify hp] at h
      cases h
      unfold dispatchEffect
      rcases classify_cases s.op with ⟨-, hc⟩ | ⟨-, hc⟩ | ⟨-, hc⟩ | ⟨-, hc⟩ | ⟨-, hc⟩ | ⟨-, hc⟩ | ⟨-, hc⟩ <;>
        simp only [hc] <;> rfl
    · simp [State.srcReq, hp] at hs
    · simp [State.srcReq, hp] at hs

/-- A CORE step leaves the read port alone. -/
theorem coreStep_port {a : Option Answer} {s t : State} (h : coreStep a s = .next t) :
    t.pendingReads = s.pendingReads ∧ t.readOut = s.readOut := by
  by_cases hs : s.srcReq = true
  · rcases coreStep_payload hs h with rfl | rfl | ⟨d, -, rfl⟩ | ⟨n, v, -, rfl⟩
    · exact ⟨rfl, rfl⟩
    · exact ⟨rfl, rfl⟩
    · rw [copyByte_frame]; exact ⟨rfl, rfl⟩
    · by_cases hov : s.cursor.toNat + n.toNat ≤ Config.P
      · rw [runByte_frame hov]; exact ⟨rfl, rfl⟩
      · rw [runByte_overrun (by omega)]; exact ⟨rfl, rfl⟩
  · unfold coreStep at h
    split at h <;> rename_i hp
    · cases h; exact ⟨rfl, rfl⟩
    · rw [show decodeByte .boundary s.op = classify s.op from rfl, exec_classify hp] at h
      cases h
      unfold dispatchEffect
      rcases classify_cases s.op with ⟨-, hc⟩ | ⟨-, hc⟩ | ⟨-, hc⟩ | ⟨-, hc⟩ | ⟨-, hc⟩ | ⟨-, hc⟩ | ⟨-, hc⟩ <;>
        simp only [hc] <;> first | exact ⟨rfl, rfl⟩ | simp
    · simp [State.srcReq, hp] at hs
    · simp [State.srcReq, hp] at hs

/-- The read port's request, in the two forms a read can be requested or not. -/
theorem requestRead_eq (p : Pins) (s : State) : requestRead p s = { s with
    readOut := none
    pendingReads := if p.fbRen then s.pendingReads ++ [{ addr := p.fbRaddr, stable := !s.busy }] else s.pendingReads } := by
  unfold requestRead; split <;> simp

/-! ### The events do not read the environment -/

theorem SameCore.fields {s t : State} (h : SameCore s t) :
    t.fb = s.fb ∧ t.cursor = s.cursor ∧ t.phase = s.phase ∧ t.mode = s.mode ∧ t.op = s.op ∧ t.ridx = s.ridx ∧
    t.done = s.done ∧ t.fault = s.fault ∧ t.unk = s.unk ∧ t.sf = s.sf ∧ t.fcode = s.fcode ∧ t.fbEpoch = s.fbEpoch := by
  rw [h]; simp

theorem SameCore.of_fields {s t : State}
    (h : t.fb = s.fb ∧ t.cursor = s.cursor ∧ t.phase = s.phase ∧ t.mode = s.mode ∧ t.op = s.op ∧ t.ridx = s.ridx ∧
      t.done = s.done ∧ t.fault = s.fault ∧ t.unk = s.unk ∧ t.sf = s.sf ∧ t.fcode = s.fcode ∧ t.fbEpoch = s.fbEpoch) :
    SameCore s t := by
  obtain ⟨h1, h2, h3, h4, h5, h6, h7, h8, h9, h10, h11, h12⟩ := h
  cases s; cases t; simp_all [SameCore]

theorem SameCore.runByte {s t : State} (h : SameCore s t) (n : BitVec 7) (v : Bool) :
    SameCore (runByte n v s) (runByte n v t) := by
  obtain ⟨h1, h2, h3, h4, h5, h6, h7, h8, h9, h10, h11, h12⟩ := h.fields
  by_cases hle : s.cursor.toNat + n.toNat ≤ Config.P
  · have hle' : t.cursor.toNat + n.toNat ≤ Config.P := by rw [h2]; exact hle
    apply SameCore.of_fields
    rw [runByte_frame hle, runByte_frame hle']
    simp only [h2, h3, h4, h5, h6, h7, h8, h9, h10, h11, h12, spanWrite_fb_congr h1 h12, and_self]
  · rw [runByte_overrun (by omega), runByte_overrun (by rw [h2]; omega)]
    exact SameCore.of_fields (by simp [h1, h2, h4, h5, h6, h7, h9, h12])

theorem SameCore.copyByte {s t : State} (h : SameCore s t) (d : Byte) : SameCore (copyByte d s) (copyByte d t) := by
  obtain ⟨h1, h2, h3, h4, h5, h6, h7, h8, h9, h10, h11, h12⟩ := h.fields
  apply SameCore.of_fields
  rw [copyByte_frame, copyByte_frame]
  simp only [h1, h2, h3, h4, h5, h6, h7, h8, h9, h10, h11, h12, and_self]

theorem SameCore.dispatchEffect {s t : State} (h : SameCore s t) : SameCore (dispatchEffect s) (dispatchEffect t) := by
  obtain ⟨h1, h2, h3, h4, h5, h6, h7, h8, h9, h10, h11, h12⟩ := h.fields
  unfold Machine.dispatchEffect
  rw [h5]
  rcases classify_cases s.op with ⟨-, hc⟩ | ⟨-, hc⟩ | ⟨-, hc⟩ | ⟨-, hc⟩ | ⟨-, hc⟩ | ⟨-, hc⟩ | ⟨-, hc⟩ <;>
    simp only [hc] <;> exact SameCore.of_fields (by simp [h1, h2, h3, h4, h5, h6, h7, h8, h9, h10, h11, h12])

/-- An event of a state is, up to the environment, an event of every state with the same CORE. -/
theorem CoreEvent.congr {s s' t : State} (h : SameCore s s') (he : CoreEvent s' t) :
    ∃ u, CoreEvent s u ∧ SameCore u t := by
  obtain ⟨h1, h2, h3, h4, h5, h6, h7, h8, h9, h10, h11, h12⟩ := h.fields
  cases he with
  | quiet => exact ⟨s, .quiet, h⟩
  | start hp op => exact ⟨_, .start (h3 ▸ hp) op, SameCore.of_fields (by simp [h1, h2, h4, h6, h10, h12])⟩
  | reset => exact ⟨_, .reset, SameCore.of_fields (by simp [h12])⟩
  | dispatch hp => exact ⟨_, .dispatch (h3 ▸ hp), h.dispatchEffect⟩
  | trunc hp => exact ⟨_, .trunc (h3 ▸ hp), SameCore.of_fields (by simp [h1, h2, h4, h5, h6, h7, h9, h12])⟩
  | copy hp hlt d => exact ⟨_, .copy (h3 ▸ hp) (h6 ▸ hlt) d, h.copyByte d⟩
  | run hp n v => exact ⟨_, .run (h3 ▸ hp) n v, h.runByte n v⟩

/-! ### The agents -/

theorem answerRead_sameCore (a : BitVec 10) (b : Bool) (s : State) : SameCore s (answerRead a b s) := by
  unfold answerRead; split <;> rfl

theorem coreTurn_event {s t : State} (h : coreTurn s = .next t) : ∃ u, CoreEvent s u ∧ SameCore u t := by
  unfold coreTurn at h
  split at h
  · exact CoreEvent.congr (s' := { s with source := (pull s.source).2 }) rfl (coreStep_event h)
  · exact ⟨t, coreStep_event h, SameCore.refl t⟩

theorem requestRead_sameCore (p : Pins) (s : State) : SameCore s (requestRead p s) := rfl

theorem answerOldest_sameCore (s : State) : SameCore s (answerOldest s) := by
  unfold answerOldest
  split
  · exact SameCore.refl s
  · rename_i r rest _
    exact SameCore.trans (t := { s with pendingReads := rest }) rfl (answerRead_sameCore _ _ _)

theorem edgeEvent_event {p : Pins} {s t : State} (h : edgeEvent p s = .next t) : ∃ u, CoreEvent s u ∧ SameCore u t := by
  unfold edgeEvent at h
  split at h
  · rename_i hr
    cases h
    split
    · exact ⟨_, .start (by simpa [State.cmdReady] using hr) _, SameCore.refl _⟩
    · exact ⟨s, .quiet, SameCore.refl s⟩
  · split at h
    · exact CoreEvent.congr (s' := { s with source := consume p.answer s.source }) rfl (coreStep_event h)
    · split at h
      · exact ⟨t, coreStep_event h, SameCore.refl t⟩
      · cases h; exact ⟨s, .quiet, SameCore.refl s⟩

theorem clockEdge_event {p : Pins} {s t : State} (h : clockEdge p s = .next t) :
    ∃ u, CoreEvent s u ∧ SameCore u t := by
  unfold clockEdge at h
  split at h
  · cases h; exact CoreEvent.congr (s' := { s with readOut := none }) rfl .reset
  · split at h
    · rename_i u hu
      cases h
      obtain ⟨v, hv, hvu⟩ := edgeEvent_event hu
      obtain ⟨w, hw, hwv⟩ := CoreEvent.congr (requestRead_sameCore p s) hv
      refine ⟨w, hw, hwv.trans (hvu.trans ?_)⟩
      split
      · exact answerOldest_sameCore u
      · exact SameCore.refl u
    · cases h
    · cases h

theorem hostMove_event {m : HostMove} {s t : State} (h : hostMove m s = .next t) :
    ∃ u, CoreEvent s u ∧ SameCore u t := by
  cases m with
  | wait => exact coreTurn_event h
  | start op =>
    cases h
    unfold offerStart
    split
    · rename_i hr; exact ⟨_, .start (by simpa [State.cmdReady] using hr) op, SameCore.refl _⟩
    · exact ⟨s, .quiet, SameCore.refl s⟩
  | readFb a => cases h; exact ⟨s, .quiet, answerRead_sameCore _ _ _⟩
  | reset => cases h; exact ⟨_, .reset, SameCore.refl _⟩
  | edge p => exact clockEdge_event h

theorem refMove_event (r : RefHost) {s : State} (hp : s.phase = .idle) :
    ∃ u, CoreEvent s u ∧ SameCore u (refMove r s) := by
  unfold refMove
  split
  · unfold tickRead
    split
    · exact ⟨s, .quiet, SameCore.refl s⟩
    · rename_i op src _; exact ⟨_, .start hp op, rfl⟩
    · split <;> exact ⟨s, .quiet, rfl⟩
  · refine ⟨s, .quiet, ?_⟩
    have hshow : SameCore s (if s.done then present s else s) := by split <;> rfl
    unfold tickEnd
    revert hshow
    generalize (if s.done then present s else s) = u
    intro hshow
    refine hshow.trans ?_
    dsimp only
    split
    · split <;> rfl
    · rfl
  · exact ⟨s, .quiet, SameCore.refl s⟩

/-- What a step does: one event of the CORE, up to the environment's part of the state. -/
theorem step_event {s t : State} (h : step s = .next t) : ∃ u, CoreEvent s u ∧ SameCore u t := by
  unfold step nextEvent at h
  split at h
  · exact coreTurn_event h
  · rename_i m moves _
    obtain ⟨u, hu, hut⟩ := hostMove_event h
    obtain ⟨w, hw, hwu⟩ := CoreEvent.congr (s := s) (s' := { s with host := .script moves }) rfl hu
    exact ⟨w, hw, hwu.trans hut⟩
  · rename_i r _
    split at h
    · exact coreTurn_event h
    · rename_i hb
      cases h
      exact refMove_event r (by simpa [State.busy] using hb)

/-! ### Where the CORE has the turn -/

theorem step_coreTurn {s c : State} (h : s.coreTurnState = some c) : step s = coreTurn c := by
  unfold State.coreTurnState at h
  unfold step nextEvent
  split at h <;> rename_i hh
  · cases h; rw [hh]
  · cases h; rw [hh]; rfl
  · cases h
  · split at h
    · rename_i hb; cases h; rw [hh]; exact if_pos hb
    · cases h

/-- A run byte pulled in a pass: the step applies it in the current mode. -/
theorem step_runByte {s c : State} {src : Source} {b : Byte} (h : s.coreTurnState = some c) (hp : c.phase = .run)
    (hpull : pull c.source = (some (.byte b), src)) :
    step s = .next (runByte (runLength b) (runValue b) { c with source := src }) := by
  have hs : c.srcReq = true := srcReq_iff.2 (Or.inr hp)
  rw [step_coreTurn h, coreTurn, if_pos hs, hpull]
  unfold coreStep
  simp only [hp]
  rw [← hp]
  exact payloadStep_run (s := { c with source := src }) hp b

/-- A raw byte pulled in a raw copy: the step copies it. -/
theorem step_copyByte {s c : State} {src : Source} {b : Byte} (h : s.coreTurnState = some c) (hp : c.phase = .raw)
    (hlt : c.ridx.toNat < Config.NB) (hpull : pull c.source = (some (.byte b), src)) :
    step s = .next (copyByte b { c with source := src }) := by
  have hs : c.srcReq = true := srcReq_iff.2 (Or.inl hp)
  rw [step_coreTurn h, coreTurn, if_pos hs, hpull]
  unfold coreStep
  simp only [hp]
  rw [← hp]
  exact (payloadStep_raw (s := { c with source := src }) hp b).trans (if_pos hlt)

end Sys2Proof.Machine
end

