-- ==== Sys2Proof/Laws/Run.lean ====
section
/-! SUPPORT. Runs of several steps: one step at a time, and one run after another. -/

namespace Sys2Proof.Machine

@[simp] theorem runFor_zero (s : State) : runFor 0 s = .next s := rfl

theorem runFor_step {s t : State} (h : step s = .next t) (k : Nat) : runFor (k + 1) s = runFor k t := by
  simp only [runFor, h]

theorem runFor_one_add {s t : State} (h : step s = .next t) (k : Nat) : runFor (1 + k) s = runFor k t := by
  rw [Nat.add_comm]; exact runFor_step h k

theorem runFor_add {a : Nat} {s t : State} (h : runFor a s = .next t) (b : Nat) : runFor (a + b) s = runFor b t := by
  induction a generalizing s with
  | zero => cases h; rw [Nat.zero_add]
  | succ a ih =>
    rw [show a + 1 + b = (a + b) + 1 by omega]
    cases hs : step s with
    | next u => rw [runFor_step hs] at h ⊢; exact ih h
    | fault f => simp [runFor, hs] at h
    | refused r => simp [runFor, hs] at h

/-- At a dispatch, with no host move pending, the step is the effect of the opcode. -/
theorem step_dispatch {s c : State} (h : s.coreTurnState = some c) (hp : c.phase = .dispatch) :
    step s = .next (dispatchEffect c) := by
  rw [step_coreTurn h]
  simpa [coreTurn, State.srcReq, hp, coreStep, decodeByte] using exec_classify hp

/-- A failed pull in a payload: the step is the fault. -/
theorem step_failedPull {s c : State} {src : Source} (h : s.coreTurnState = some c) (hs : c.srcReq = true)
    (hp : pull c.source = (some .fail, src)) : step s = .next (raiseFault .trunc { c with source := src }) := by
  rw [step_coreTurn h]
  rcases srcReq_iff.1 hs with hph | hph <;> simp [coreTurn, hs, hp, coreStep, hph, payloadStep]

/-- With the host's script used up the CORE has the turn. -/
theorem coreTurnState_idleHost {s : State} (h : s.host = .script []) : s.coreTurnState = some s := by
  simp [State.coreTurnState, h]

/-! ### The pixels of a run pass -/

@[simp] theorem runsLength_nil : runsLength [] = 0 := rfl

@[simp] theorem runsLength_cons (r : BitVec 7 × Bool) (runs : List (BitVec 7 × Bool)) :
    runsLength (r :: runs) = r.1.toNat + runsLength runs := by simp [runsLength]

theorem runsLength_append (a b : List (BitVec 7 × Bool)) : runsLength (a ++ b) = runsLength a + runsLength b := by
  simp [runsLength]

theorem runsLength_take_mono {a b : Nat} (h : a ≤ b) (runs : List (BitVec 7 × Bool)) :
    runsLength (runs.take a) ≤ runsLength (runs.take b) := by
  obtain ⟨d, rfl⟩ := Nat.exists_eq_add_of_le h
  rw [List.take_add, runsLength_append]
  omega

theorem runsLength_take_le (m : Nat) (runs : List (BitVec 7 × Bool)) : runsLength (runs.take m) ≤ runsLength runs := by
  conv_rhs => rw [← List.take_append_drop m runs, runsLength_append]
  omega

/-- A pixel lies in at most one run of a pass. -/
theorem inRun_unique {runs : List (BitVec 7 × Bool)} {m m' i : Nat} (h : inRun runs m i) (h' : inRun runs m' i) :
    m' = m := by
  unfold inRun at *
  rcases Nat.lt_trichotomy m' m with g | g | g
  · have := runsLength_take_mono (show m' + 1 ≤ m from g) runs; omega
  · exact g
  · have := runsLength_take_mono (show m + 1 ≤ m' from g) runs; omega

end Sys2Proof.Machine
end

