-- ==== Sys2Proof/Tests/Slice0.lean ====
section
/-! SUPPORT. Tests with results from spec/95_test_vectors.md (each names its vector), the WellFormed smoke, and for
every statement with hypotheses a witness that meets them. -/

namespace Sys2Proof.Tests

open Sys2Proof Sys2Proof.Machine

/-! ### Small states -/

/-- Bytes placed in the frame buffer from address 0 on. -/
def cells (bytes : List Byte) : List Host.Cell := (List.range bytes.length).zip bytes

/-- A frame started with this opcode, not yet dispatched, over these first bytes. -/
def started (op : Byte) (bytes : List Byte) : State :=
  { State.reset with phase := .dispatch, op := op, fb := cells bytes, cursor := 40#13, ridx := 7#10 }

/-- A pass in progress at a cursor, over these first bytes. -/
def passing (mode : Mode) (cursor : BitVec 13) (bytes : List Byte) : State :=
  { State.reset with
    phase := .run, mode := mode, op := if mode = .ovr then 0x02#8 else 0x03#8, cursor := cursor, fb := cells bytes }

/-- A raw copy in progress at an index, over these first bytes. -/
def copying (ridx : BitVec 10) (bytes : List Byte) : State :=
  { State.reset with phase := .raw, op := 0x01#8, ridx := ridx, fb := cells bytes }

/-- A state with this one host move pending. -/
def withMove (m : HostMove) (s : State) : State := { s with host := .script [m] }

/-- A state whose source has these answers. -/
def withAnswers (a : List Answer) (s : State) : State := { s with source := .script a }

/-- What is seen of an outcome: something of the next state, if there is one. -/
def seen {α : Type} (f : State → α) : Host.Outcome State Fault Refusal → Option α
  | .next t => some (f t)
  | .fault _ => none
  | .refused _ => none

/-- The first three bytes and the cursor. -/
def threeBytes (t : State) : Byte × Byte × Byte × BitVec 13 := (fbRead t 0, fbRead t 1, fbRead t 2, t.cursor)

/-- Phase, status word, cursor and raw index. -/
def control (t : State) : Phase × Byte × BitVec 13 × BitVec 10 := (t.phase, t.status, t.cursor, t.ridx)

/-! ### WellFormed: an ill-formed term for its one check -/

theorem test_wellFormed_refuses_unk_0 : (Instr.unk 0x00#8).wellFormed = false := by decide
theorem test_wellFormed_refuses_unk_5 : (Instr.unk 0x05#8).wellFormed = false := by decide
theorem test_wellFormed_takes_unk_6 : (Instr.unk 0x06#8).wellFormed = true := by decide

/-! ### Decoding: words from the tables of B1 -/

theorem test_decode_blank : decode .boundary [0b00000000#8] = .instr .blank [] := by decide
theorem test_decode_raw : decode .boundary [0b00000001#8] = .instr .raw [] := by decide
theorem test_decode_rle : decode .boundary [0b00000010#8] = .instr .rle [] := by decide
theorem test_decode_xrle : decode .boundary [0b00000011#8] = .instr .xrle [] := by decide
theorem test_decode_clr0 : decode .boundary [0b00000100#8] = .instr .clr0 [] := by decide
theorem test_decode_clr1 : decode .boundary [0b00000101#8] = .instr .clr1 [] := by decide
theorem test_decode_unk : [0x06#8, 0x07#8, 0x08#8, 0x10#8, 0x7F#8, 0x80#8, 0xFF#8].map (decodeByte .boundary)
    = [.unk 0x06#8, .unk 0x07#8, .unk 0x08#8, .unk 0x10#8, .unk 0x7F#8, .unk 0x80#8, .unk 0xFF#8] := by decide
theorem test_decode_run : [0x00#8, 0x01#8, 0x07#8, 0x51#8, 0x80#8, 0xFE#8].map (decodeByte .runOvr)
    = [.run 0#7 false, .run 0#7 true, .run 3#7 true, .run 40#7 true, .run 64#7 false, .run 127#7 false] := by decide
theorem test_decode_xrun : [0x02#8, 0x03#8, 0x08#8, 0x10#8, 0x7F#8, 0xFF#8].map (decodeByte .runXor)
    = [.xrun 1#7 false, .xrun 1#7 true, .xrun 4#7 false, .xrun 8#7 false, .xrun 63#7 true, .xrun 127#7 true] := by decide
theorem test_decode_rawb : decode .rawPayload [0xAB#8, 0xCD#8] = .instr (.rawb 0xAB#8) [0xCD#8] := by decide
theorem test_decode_no_byte : decode .boundary [] = .rejected .noByte := by decide

/-- The words of the opcode table, read at a frame boundary (log 10). -/
theorem test_decodeTableWord : [0, 1, 2, 3, 4, 5, 6, 128].map (decodeTableWord 8)
    = [some .blank, some .raw, some .rle, some .xrle, some .clr0, some .clr1, some (.unk 0x06#8),
      some (.unk 0x80#8)] := by decide

/-! ### Masks and combine: the table of B2 -/

theorem test_mask : [mask 0 0, mask 0 8, mask 8 8, mask 5 8, mask 0 4, mask 2 5, mask 7 8, mask 0 1, mask 3 3, mask 1 7]
    = [0x00#8, 0xFF#8, 0x00#8, 0x07#8, 0xF0#8, 0x38#8, 0x01#8, 0x80#8, 0x00#8, 0x7E#8] := by decide
theorem test_combine : [combine 0xA5#8 0x38#8 true .ovr, combine 0xA5#8 0x38#8 false .ovr, combine 0xA5#8 0x38#8 true .xor,
      combine 0xA5#8 0x38#8 false .xor, combine 0xA5#8 0xFF#8 true .xor]
    = [0xBD#8, 0x85#8, 0x9D#8, 0xA5#8, 0x5A#8] := by decide

/-! ### Meanings: B3 to B6 -/

/-- K1. -/
theorem test_blank : seen control (exec .blank (started 0x00#8 [0x5A#8])) = some (.idle, 0x02#8, 40#13, 7#10) := by decide
/-- K1: `FB = X`. -/
theorem test_blank_bytes : seen (fbRead · 0) (exec .blank (started 0x00#8 [0x5A#8])) = some 0x5A#8 := by decide
/-- K2. -/
theorem test_unk : seen control (exec (.unk 0x09#8) (started 0x09#8 [])) = some (.idle, 0x0A#8, 40#13, 7#10) := by decide
/-- K3 with `SF = 1` at the start. -/
theorem test_unk_after_fault :
    seen State.status (exec (.unk 0xFF#8) { started 0xFF#8 [] with sf := true }) = some 0x1A#8 := by decide
/-- F1: status, cursor, raw index. -/
theorem test_clr0 : seen control (exec .clr0 (started 0x04#8 [0x5A#8])) = some (.idle, 0x02#8, 40#13, 7#10) := by decide
/-- F1: the first byte. -/
theorem test_clr0_bytes : seen (fbRead · 0) (exec .clr0 (started 0x04#8 [0x5A#8])) = some 0x00#8 := by decide
/-- F2: status. -/
theorem test_clr1 : seen control (exec .clr1 (started 0x05#8 [0x5A#8])) = some (.idle, 0x02#8, 40#13, 7#10) := by decide
/-- F2: pixel 1 (0 in `0xA5`). -/
theorem test_clr1_pixel : seen (pixGet · 1) (exec .clr1 (started 0x05#8 [0xA5#8])) = some true := by decide
/-- K5. -/
theorem test_raw : seen control (exec .raw (started 0x01#8 [])) = some (.raw, 0x01#8, 40#13, 0#10) := by decide
/-- K6. -/
theorem test_rle : seen (fun t => (control t, t.mode)) (exec .rle (started 0x02#8 []))
    = some ((.run, 0x01#8, 0#13, 7#10), .ovr) := by decide
/-- K7. -/
theorem test_xrle : seen (fun t => (control t, t.mode)) (exec .xrle (started 0x03#8 []))
    = some ((.run, 0x01#8, 0#13, 7#10), .xor) := by decide
/-- V9: a run across a byte boundary. -/
theorem test_run_head_tail : seen threeBytes (exec (.run 2#7 true) (passing .ovr 7#13 [0xA5#8, 0x5A#8, 0xC3#8]))
    = some (0xA5#8, 0xDA#8, 0xC3#8, 9#13) := by decide
/-- V14: head, body and tail. -/
theorem test_run_three_parts : seen threeBytes (exec (.run 18#7 false) (passing .ovr 3#13 [0xA5#8, 0x5A#8, 0xC3#8]))
    = some (0xA0#8, 0x00#8, 0x03#8, 21#13) := by decide
/-- V20: head only. -/
theorem test_xrun_head : seen threeBytes (exec (.xrun 4#7 true) (passing .xor 2#13 [0xB6#8, 0x00#8, 0x00#8]))
    = some (0x8A#8, 0x00#8, 0x00#8, 6#13) := by decide
/-- V27: head, body and tail. -/
theorem test_xrun_three_parts : seen threeBytes (exec (.xrun 18#7 true) (passing .xor 3#13 [0xA5#8, 0x5A#8, 0xC3#8]))
    = some (0xBA#8, 0xA5#8, 0x3B#8, 21#13) := by decide
/-- W2. -/
theorem test_rawb : seen (fun t => (fbRead t 0, control t)) (exec (.rawb 0xAB#8) (copying 0#10 [0x11#8, 0x22#8]))
    = some (0xAB#8, .raw, 0x01#8, 0#13, 1#10) := by decide
/-- W3, at the last byte of this geometry: the frame ends. -/
theorem test_rawb_last : seen control (exec (.rawb 0xCD#8) (copying 639#10 [])) = some (.idle, 0x02#8, 0#13, 640#10) := by
  decide

/-! ### Steps -/

/-- E2 at this geometry: `5110 + 11 = 5121 > 5120` (program P3b, tick 2). -/
theorem test_step_overrun : seen control (step (withAnswers [.byte 0x16#8] (passing .ovr 5110#13 [])))
    = some (.idle, 0x54#8, 5110#13, 0#10) := by decide
/-- E3: a failed pull. -/
theorem test_step_trunc : seen control (step (withAnswers [.fail] (passing .ovr 10#13 [])))
    = some (.idle, 0x34#8, 10#13, 0#10) := by decide
/-- E1 at this geometry: the run that ends exactly at `P` (program P1, tick 2: `0x10` at 5112). -/
theorem test_step_last_run : seen control (step (withAnswers [.byte 0x10#8] (passing .ovr 5112#13 [])))
    = some (.idle, 0x02#8, 5120#13, 0#10) := by decide
/-- B4: `START(04)` offered in a pass is not accepted. -/
theorem test_step_start_while_busy :
    seen (fun t => (t.phase, t.op, t.cursor)) (step (withMove (.start 0x04#8) (passing .ovr 40#13 [])))
    = some (.run, 0x02#8, 40#13) := by decide
/-- B6: after a fault the next `START` gives `STATUS = 11`. -/
theorem test_step_start_after_fault :
    seen State.status (step (withMove (.start 0x05#8) (raiseFault .overrun (passing .ovr 10#13 [])))) = some 0x11#8 := by
  decide
/-- B6: after `RESET` everything but the frame buffer is zero. -/
theorem test_step_reset : seen (fun t => (control t, t.op, t.sf))
      (step (withMove .reset (raiseFault .trunc (passing .xor 10#13 [0x12#8]))))
    = some ((.idle, 0x00#8, 0#13, 0#10), 0x00#8, false) := by decide
/-- R37. -/
theorem test_reset : control State.reset = (.idle, 0x00#8, 0#13, 0#10) := by decide
/-- 20 R59: an idle read gives the byte. -/
theorem test_step_host_read :
    seen (·.readOut) (step (withMove (.readFb 1#10) { State.reset with fb := cells [0x12#8, 0x34#8] }))
    = some (some 0x34#8) := by decide
/-- P4b, tick 3: the opcode read past the end restarts the stream at offset 0. -/
theorem test_step_restart : seen (·.source)
      (step { State.reset with
        host := .reference ⟨true, .halt, .readOp⟩, source := .stream [0x05#8, 0x02#8, 0x08#8, 0x09#8] 4 })
    = some (.stream [0x05#8, 0x02#8, 0x08#8, 0x09#8] 0) := by decide
/-- P1, tick 1: the host reads `05` and starts it. -/
theorem test_step_tick : seen (fun t => (t.op, t.phase, t.source))
      (step (referenceStart [0x05#8, 0x02#8] State.reset))
    = some (0x05#8, .dispatch, .stream [0x05#8, 0x02#8] 1) := by decide
/-- 46 R160: `src_fail` wins over `src_valid`. -/
theorem test_step_pins : seen State.status
      (step (withMove (.edge ⟨false, false, 0x00#8, true, true, 0xAB#8, false, 0#10, false, false⟩) (copying 0#10 [])))
    = some 0x34#8 := by decide
/-- 46 R160: a completed `BYTE` consumes exactly one byte of the stream, 20 R56: the position moves on by 1. -/
theorem test_step_pins_consume : seen (fun t => (fbRead t 0, t.source))
      (step { copying 0#10 [0x11#8] with
        host := .script [.edge ⟨false, false, 0x00#8, true, false, 0xAB#8, false, 0#10, false, false⟩]
        source := .stream [0x01#8, 0xAB#8, 0xCD#8] 1 })
    = some (0xAB#8, .stream [0x01#8, 0xAB#8, 0xCD#8] 2) := by decide
/-- 46 R160: a `FAIL` consumes none. -/
theorem test_step_pins_fail_keeps : seen (fun t => (t.status, t.source))
      (step { copying 0#10 [] with
        host := .script [.edge ⟨false, false, 0x00#8, false, true, 0x00#8, false, 0#10, false, false⟩]
        source := .stream [0x01#8, 0xAB#8] 1 })
    = some (0x34#8, .stream [0x01#8, 0xAB#8] 1) := by decide
/-- 46 R162: a read requested while idle is still specified at the next edge, and answered with the byte. -/
theorem test_step_read_later : seen (fun t => (t.fbRvalid, t.readOut, t.pendingReads))
      (step { State.reset with
        fb := cells [0x12#8, 0x34#8], pendingReads := [⟨1#10, true⟩]
        host := .script [.edge ⟨false, false, 0x00#8, false, false, 0x00#8, false, 0#10, false, true⟩] })
    = some (true, some 0x34#8, []) := by decide
/-- 46 R162: `BUSY` is 1 between request and answer, so the answer is no longer specified. -/
theorem test_step_read_spoiled : seen (fun t => (t.fbRvalid, t.pendingReads))
      (step { State.reset with
        pendingReads := [⟨1#10, true⟩]
        host := .script [.edge ⟨false, true, 0x02#8, false, false, 0x00#8, false, 0#10, false, false⟩] })
    = some (false, [⟨1#10, false⟩]) := by decide
/-- 10 R38, R30, 60 R171: the fault codes in the status word. -/
theorem test_fault_codes : ({ State.reset with fcode := .trunc } : State).status = 0x20#8 ∧
    ({ State.reset with fcode := .overrun } : State).status = 0x40#8 := by decide
/-- A table word placed after reset runs as the first instruction (log 11): K6. -/
theorem test_withFetchWord : seen (·.phase) (step (State.reset.withFetchWord 8 0x02)) = some .run := by decide

/-! ### Witnesses: for every statement with hypotheses, inputs that meet them -/

theorem witness_DecodeEncodeRoundTrip :
    (Instr.unk 0x06#8).wellFormed = true ∧ (Instr.unk 0xFF#8).wellFormed = true ∧ (Instr.run 127#7 true).wellFormed = true := by
  decide
theorem witness_OpcodeClassification : 6 ≤ (0x06#8 : Byte).toNat ∧ 6 ≤ (0xFF#8 : Byte).toNat := by decide
theorem witness_MaskForms : (2 ≤ 5 ∧ 5 ≤ 8 ∧ 7 < 8) ∧ (0 ≤ 0 ∧ 0 ≤ 8) ∧ (8 ≤ 8 ∧ 0 < 8) := by decide
theorem witness_CombineRule : (0x38#8 : Byte).getLsbD 5 = true ∧ (0x01#8 : Byte).getLsbD 0 = true := by decide
theorem witness_ApplySpanMeaning : (5 ≤ 7 ∧ 7 < 5 + 3) ∧ ¬ (5 ≤ 8 ∧ 8 < 5 + 3) ∧ ¬ (5 ≤ 5 ∧ 5 < 5 + 0) := by decide
theorem witness_OverwriteProperty :
    (7 ≤ 8 ∧ 8 < 7 + 2) ∧ ¬ (7 ≤ 9 ∧ 9 < 7 + 2) ∧ (7 + 2 ≤ 9 ∨ 9 + 1 ≤ 7) ∧ (7 + 2 ≤ 0 ∨ 0 + 7 ≤ 7) := by decide

theorem witness_ResetEvent_script :
    (withMove .reset (passing .ovr 5#13 [])).host = .script [.reset] ∧
    (withMove .reset (passing .ovr 5#13 [])).source = .script [] := by decide
theorem witness_ResetEvent_stream :
    ({ passing .ovr 5#13 [] with host := .script [.reset], source := .stream [0x07#8] 0 } : State).host = .script [.reset] ∧
    ({ passing .ovr 5#13 [] with host := .script [.reset], source := .stream [0x07#8] 0 } : State).source
      = .stream [0x07#8] 0 := by decide
theorem witness_ResetEvent_no_pull :
    (withMove .reset State.reset).host = .script [.reset] ∧ (withMove .reset State.reset).srcReq = false := by decide
theorem witness_StartOnlyWhenIdle_busy :
    (withMove (.start 0x04#8) (passing .ovr 40#13 [])).host = .script [.start 0x04#8] ∧
    (withMove (.start 0x04#8) (passing .ovr 40#13 [])).phase ≠ .idle := by decide
theorem witness_StartOnlyWhenIdle_idle :
    (withMove (.start 0x04#8) State.reset).host = .script [.start 0x04#8] ∧
    (withMove (.start 0x04#8) State.reset).phase = .idle := by decide

theorem witness_StepRunsDispatchedOpcode :
    (withMove .wait (started 0x03#8 [])).coreTurnState = some (started 0x03#8 []) ∧
    (started 0x03#8 []).phase = .dispatch ∧ decode .boundary [(started 0x03#8 []).op] = .instr .xrle [] := by decide
theorem witness_StepRunsPayloadByte_run :
    (withAnswers [.byte 0x07#8] (passing .ovr 5#13 [])).coreTurnState
      = some (withAnswers [.byte 0x07#8] (passing .ovr 5#13 [])) ∧
    (withAnswers [.byte 0x07#8] (passing .ovr 5#13 [])).srcReq = true ∧
    pull (withAnswers [.byte 0x07#8] (passing .ovr 5#13 [])).source = (some (.byte 0x07#8), .script []) ∧
    decode (payloadContext (withAnswers [.byte 0x07#8] (passing .ovr 5#13 []))) [0x07#8] = .instr (.run 3#7 true) [] := by
  decide
theorem witness_StepRunsPayloadByte_xrun :
    (withAnswers [.byte 0xFE#8] (passing .xor 5#13 [])).srcReq = true ∧
    pull (withAnswers [.byte 0xFE#8] (passing .xor 5#13 [])).source = (some (.byte 0xFE#8), .script []) ∧
    decode (payloadContext (withAnswers [.byte 0xFE#8] (passing .xor 5#13 []))) [0xFE#8] = .instr (.xrun 127#7 false) [] := by
  decide
theorem witness_StepRunsPayloadByte_rawb :
    (withAnswers [.byte 0xAB#8] (copying 639#10 [])).srcReq = true ∧
    pull (withAnswers [.byte 0xAB#8] (copying 639#10 [])).source = (some (.byte 0xAB#8), .script []) ∧
    decode (payloadContext (withAnswers [.byte 0xAB#8] (copying 639#10 []))) [0xAB#8] = .instr (.rawb 0xAB#8) [] := by
  decide
theorem witness_WaitingChangesNothing_pull :
    (passing .ovr 5#13 []).coreTurnState = some (passing .ovr 5#13 []) ∧ (passing .ovr 5#13 []).srcReq = true ∧
    (passing .ovr 5#13 []).source = .script [] := by decide
theorem witness_WaitingChangesNothing_idle :
    State.reset.coreTurnState = some State.reset ∧ State.reset.phase = .idle := by decide

/-- For `BlankEndsTheFrame`, `RawDispatchBeginsCopy`, `RleDispatchBeginsPass`, `XrleDispatchBeginsPass`,
`Clr0ClearsEveryByte`, `Clr1SetsEveryByte`: a state at its dispatch, and the first and last byte and pixel. -/
theorem witness_dispatch : (started 0x04#8 [0x5A#8]).phase = .dispatch ∧ 0 < Config.NB ∧ 639 < Config.NB ∧ 0 < Config.P ∧
    5119 < Config.P := by decide
theorem witness_UnknownOpcodeIsNoOp :
    6 ≤ (0x06#8 : Byte).toNat ∧ 6 ≤ (0xFF#8 : Byte).toNat ∧ (started 0x06#8 []).phase = .dispatch := by decide

theorem witness_RawByteIsCopied :
    (copying 0#10 []).phase = .raw ∧ (copying 0#10 []).ridx.toNat + 1 < Config.NB ∧ 7 < 8 := by decide
theorem witness_RawByteIsCopied_last :
    (copying 639#10 []).phase = .raw ∧ (copying 639#10 []).ridx.toNat < Config.NB ∧
    (copying 639#10 []).ridx.toNat + 1 = Config.NB := by decide
theorem witness_RawByteIsCopied_fail :
    (withAnswers [.fail] (copying 1#10 [])).coreTurnState = some (withAnswers [.fail] (copying 1#10 [])) ∧
    (withAnswers [.fail] (copying 1#10 [])).phase = .raw ∧
    pull (withAnswers [.fail] (copying 1#10 [])).source = (some .fail, .script []) := by decide

/-- For `OverwriteRunSetsPixels`: inside the frame, to its last pixel, past it. -/
theorem witness_OverwriteRunSetsPixels :
    (passing .ovr 5110#13 []).phase = .run ∧ (passing .ovr 5110#13 []).mode = .ovr ∧
    (passing .ovr 5110#13 []).cursor.toNat + (9#7 : BitVec 7).toNat < Config.P ∧
    (passing .ovr 5110#13 []).cursor.toNat + (10#7 : BitVec 7).toNat = Config.P ∧
    Config.P < (passing .ovr 5110#13 []).cursor.toNat + (11#7 : BitVec 7).toNat := by decide
theorem witness_DeltaRunInvertsPixels :
    (passing .xor 5110#13 []).phase = .run ∧ (passing .xor 5110#13 []).mode = .xor ∧
    (passing .xor 5110#13 []).cursor.toNat + (9#7 : BitVec 7).toNat < Config.P ∧
    (passing .xor 5110#13 []).cursor.toNat + (10#7 : BitVec 7).toNat = Config.P ∧
    Config.P < (passing .xor 5110#13 []).cursor.toNat + (11#7 : BitVec 7).toNat := by decide
/-- The other clauses of the two run statements: pixels at both ends of the run, just outside it, and bytes it leaves. -/
theorem witness_run_pixels : (7 ≤ 7 ∧ 7 < 7 + 2) ∧ (7 ≤ 8 ∧ 8 < 7 + 2) ∧ ¬ (7 ≤ 6 ∧ 6 < 7 + 2) ∧ ¬ (7 ≤ 9 ∧ 9 < 7 + 2) ∧
    (8 * 0 + 8 ≤ 8 ∨ 8 + 8 ≤ 8 * 0) ∧ (8 * 2 + 8 ≤ 8 ∨ 8 + 8 ≤ 8 * 2) := by decide
theorem witness_ZeroLengthRunChangesNothing_ovr :
    (withAnswers [.byte 0x00#8] (passing .ovr 3#13 [0xA5#8])).coreTurnState
      = some (withAnswers [.byte 0x00#8] (passing .ovr 3#13 [0xA5#8])) ∧
    (withAnswers [.byte 0x00#8] (passing .ovr 3#13 [0xA5#8])).phase = .run ∧
    (withAnswers [.byte 0x00#8] (passing .ovr 3#13 [0xA5#8])).cursor.toNat < Config.P ∧
    pull (withAnswers [.byte 0x00#8] (passing .ovr 3#13 [0xA5#8])).source = (some (.byte 0x00#8), .script []) ∧
    runLength 0x00#8 = 0#7 := by decide
theorem witness_ZeroLengthRunChangesNothing_xor :
    (withAnswers [.byte 0x01#8] (passing .xor 5119#13 [])).coreTurnState
      = some (withAnswers [.byte 0x01#8] (passing .xor 5119#13 [])) ∧
    (withAnswers [.byte 0x01#8] (passing .xor 5119#13 [])).phase = .run ∧
    (withAnswers [.byte 0x01#8] (passing .xor 5119#13 [])).cursor.toNat < Config.P ∧
    pull (withAnswers [.byte 0x01#8] (passing .xor 5119#13 [])).source = (some (.byte 0x01#8), .script []) ∧
    runLength 0x01#8 = 0#7 := by decide
theorem witness_OverrunFaultsWithoutEffect :
    (withAnswers [.byte 0x16#8] (passing .ovr 5110#13 [])).coreTurnState
      = some (withAnswers [.byte 0x16#8] (passing .ovr 5110#13 [])) ∧
    (withAnswers [.byte 0x16#8] (passing .ovr 5110#13 [])).phase = .run ∧
    pull (withAnswers [.byte 0x16#8] (passing .ovr 5110#13 [])).source = (some (.byte 0x16#8), .script []) ∧
    Config.P < (withAnswers [.byte 0x16#8] (passing .ovr 5110#13 [])).cursor.toNat + (runLength 0x16#8).toNat := by decide
theorem witness_FailedPullFaultsWithoutEffect :
    ({ passing .ovr 5#13 [] with source := .stream [0x02#8] 1 } : State).coreTurnState
      = some { passing .ovr 5#13 [] with source := .stream [0x02#8] 1 } ∧
    ({ passing .ovr 5#13 [] with source := .stream [0x02#8] 1 } : State).srcReq = true ∧
    pull ({ passing .ovr 5#13 [] with source := .stream [0x02#8] 1 } : State).source
      = (some .fail, .stream [0x02#8] 1) := by decide
theorem witness_MeaningsStopOutsideTheirContext :
    (Instr.unk 0x06#8).context = .boundary ∧ State.reset.phase ≠ .dispatch ∧
    (Instr.run 3#7 true).context = .runOvr ∧ ¬ ((passing .xor 0#13 []).phase = .run ∧ (passing .xor 0#13 []).mode = .ovr) ∧
    (Instr.xrun 3#7 true).context = .runXor ∧ ¬ ((passing .ovr 0#13 []).phase = .run ∧ (passing .ovr 0#13 []).mode = .xor) ∧
    (Instr.rawb 0xAB#8).context = .rawPayload ∧ State.reset.phase ≠ .raw ∧
    (copying 640#10 []).phase = .raw ∧ Config.NB ≤ (copying 640#10 []).ridx.toNat := by decide

/-- For `StepKeepsTheInvariant`, `InvariantStatesAlwaysStep`, `StatusValues`: a pass in progress that meets the
invariant, one run byte before its end. -/
theorem witness_invariant : (withAnswers [.byte 0x10#8] (passing .ovr 5112#13 [0x12#8])).Inv ∧
    (seen id (step (withAnswers [.byte 0x10#8] (passing .ovr 5112#13 [0x12#8])))).isSome = true := by
  refine ⟨⟨by decide, ?_, ?_, ?_, ?_, ?_, ?_, trivial⟩, by decide⟩
  · unfold State.FlagsInv; decide
  · unfold State.PassInv; decide
  · unfold State.CopyInv; decide
  · unfold State.OpcodeInv; decide
  · unfold State.FreshInv; decide
  · unfold State.ReadsInv; decide

/-- A step that faults, for `StepStopsOnlyPastTheFrameBuffer`. -/
theorem witness_StepStopsOnlyPastTheFrameBuffer :
    step (withAnswers [.byte 0xAB#8] (copying 640#10 [])) = .fault .fbAddress := by rfl

/-- For `FrameBufferWriters`, `CursorWriters`, `OpcodeIndexAndModeWriters`, `PullsOnlyInAPayload`: steps that are no
reset and that change the cursor, the opcode, the raw index, the mode and the source. -/
theorem witness_writers_run : seen (fun t => (t.fbEpoch, t.cursor, t.source))
      (step (withAnswers [.byte 0x07#8] (passing .ovr 5#13 []))) = some (0, 8#13, .script []) ∧
    (withAnswers [.byte 0x07#8] (passing .ovr 5#13 [])).fbEpoch = 0 ∧
    (withAnswers [.byte 0x07#8] (passing .ovr 5#13 [])).cursor = 5#13 ∧
    (withAnswers [.byte 0x07#8] (passing .ovr 5#13 [])).source = .script [.byte 0x07#8] ∧
    (withAnswers [.byte 0x07#8] (passing .ovr 5#13 [])).host = .script [] := by decide
theorem witness_writers_dispatch : seen (fun t => (t.fbEpoch, t.cursor, t.mode)) (step (started 0x03#8 []))
      = some (0, 0#13, .xor) ∧ (started 0x03#8 []).cursor = 40#13 ∧ (started 0x03#8 []).mode = .ovr ∧
    (started 0x03#8 []).op ≠ 0x04#8 ∧ (started 0x03#8 []).op ≠ 0x05#8 := by decide
theorem witness_writers_ridx : seen (fun t => (t.fbEpoch, t.ridx)) (step (started 0x01#8 [])) = some (0, 0#10) ∧
    (started 0x01#8 []).ridx = 7#10 ∧
    seen (fun t => (t.fbEpoch, t.ridx)) (step (withAnswers [.byte 0xAB#8] (copying 0#10 []))) = some (0, 1#10) := by decide
theorem witness_writers_op : seen (fun t => (t.fbEpoch, t.op)) (step (withMove (.start 0x05#8) State.reset))
    = some (0, 0x05#8) ∧ State.reset.op = 0x00#8 := by decide
theorem witness_StickyFaultFlag_set : seen (fun t => (t.fault, t.sf)) (step (withAnswers [.fail] (copying 0#10 [])))
    = some (true, true) ∧ (copying 0#10 []).fault = false := by decide
theorem witness_StickyFaultFlag_cleared :
    seen (·.sf) (step (withMove .reset (raiseFault .trunc (copying 0#10 [])))) = some false ∧
    (raiseFault .trunc (copying 0#10 [])).sf = true := by decide
theorem witness_PayloadCannotSteer :
    (withAnswers [.byte 0x04#8] (passing .ovr 5#13 [])).coreTurnState
      = some (withAnswers [.byte 0x04#8] (passing .ovr 5#13 [])) ∧
    (withAnswers [.byte 0x04#8] (passing .ovr 5#13 [])).srcReq = true ∧
    (seen id (step (withAnswers [.byte 0x04#8] (passing .ovr 5#13 [])))).isSome = true := by decide
theorem witness_FlagsDoNotSteer :
    (started 0x02#8 []).host = .script [] ∧
    ({ started 0x02#8 [] with sf := true, fcode := .trunc } : State)
      = { started 0x02#8 [] with
          done := (started 0x02#8 []).done, fault := (started 0x02#8 []).fault, unk := (started 0x02#8 []).unk,
          sf := true, fcode := .trunc } ∧
    (seen id (step (started 0x02#8 []))).isSome = true := by decide

/-! Whole frames -/

/-- The runs of program P1, tick 2. -/
def p1Runs : List (BitVec 7 × Bool) :=
  [(5#7, true), (6#7, false), (21#7, true), (0#7, true)] ++ List.replicate 40 (127#7, false) ++ [(8#7, false)]

theorem witness_RawWholeFrame :
    (started 0x01#8 []).phase = .dispatch ∧ (started 0x01#8 []).op = 0x01#8 ∧ (started 0x01#8 []).host = .script [] ∧
    (List.replicate 640 (0xAB#8 : Byte)).length = Config.NB ∧
    (withAnswers ((List.replicate 640 (0xAB#8 : Byte)).map .byte ++ [.fail]) (started 0x01#8 [])).source
      = .script ((List.replicate 640 (0xAB#8 : Byte)).map .byte ++ [.fail]) :=
  ⟨rfl, rfl, rfl, List.length_replicate, rfl⟩
theorem witness_whole_pass : wholePass p1Runs := by unfold wholePass; decide
theorem witness_RleWholeFrame :
    (withAnswers (runAnswers p1Runs ++ [.byte 0x03#8]) (started 0x02#8 [])).phase = .dispatch ∧
    (withAnswers (runAnswers p1Runs ++ [.byte 0x03#8]) (started 0x02#8 [])).op = 0x02#8 ∧
    (withAnswers (runAnswers p1Runs ++ [.byte 0x03#8]) (started 0x02#8 [])).host = .script [] ∧ wholePass p1Runs ∧
    (withAnswers (runAnswers p1Runs ++ [.byte 0x03#8]) (started 0x02#8 [])).source
      = .script (runAnswers p1Runs ++ [.byte 0x03#8]) :=
  ⟨rfl, rfl, rfl, witness_whole_pass, rfl⟩
theorem witness_XrleWholeFrame :
    (withAnswers (runAnswers p1Runs ++ [.fail]) (started 0x03#8 [])).phase = .dispatch ∧
    (withAnswers (runAnswers p1Runs ++ [.fail]) (started 0x03#8 [])).op = 0x03#8 ∧
    (withAnswers (runAnswers p1Runs ++ [.fail]) (started 0x03#8 [])).host = .script [] ∧ wholePass p1Runs ∧
    (withAnswers (runAnswers p1Runs ++ [.fail]) (started 0x03#8 [])).source = .script (runAnswers p1Runs ++ [.fail]) :=
  ⟨rfl, rfl, rfl, witness_whole_pass, rfl⟩
/-- The stream of program P3a, tick 2. -/
theorem witness_TruncatedPassKeepsItsPrefix :
    runsLength [(12#7, true), (100#7, false)] = 112 ∧ runsLength [(12#7, true), (100#7, false)] < Config.P ∧
    (withAnswers [.byte 0x19#8, .byte 0xC8#8, .fail] (started 0x02#8 [])).source
      = .script (runAnswers [(12#7, true), (100#7, false)] ++ .fail :: []) ∧
    (withAnswers [.byte 0x19#8, .byte 0xC8#8, .fail] (started 0x02#8 [])).phase = .dispatch ∧
    (withAnswers [.byte 0x19#8, .byte 0xC8#8, .fail] (started 0x02#8 [])).op = 0x02#8 ∧
    (withAnswers [.byte 0x19#8, .byte 0xC8#8, .fail] (started 0x02#8 [])).host = .script [] := by decide
theorem witness_ZeroLengthRunsNeverEndAPass :
    (withAnswers [.byte 0x01#8, .byte 0x00#8] (passing .xor 5119#13 [])).phase = .run ∧
    (withAnswers [.byte 0x01#8, .byte 0x00#8] (passing .xor 5119#13 [])).cursor.toNat < Config.P ∧
    (withAnswers [.byte 0x01#8, .byte 0x00#8] (passing .xor 5119#13 [])).host = .script [] ∧
    (∀ b ∈ [(0x01#8 : Byte), 0x00#8], b = 0x00#8 ∨ b = 0x01#8) ∧
    (withAnswers [.byte 0x01#8, .byte 0x00#8] (passing .xor 5119#13 [])).source
      = .script ([0x01#8, 0x00#8].map .byte ++ []) := by decide

/-! The host and the ports -/

theorem witness_HostReadAnswer_idle :
    (withMove (.readFb 639#10) State.reset).host = .script [.readFb 639#10] ∧
    (withMove (.readFb 639#10) State.reset).busy = false ∧ (639#10 : BitVec 10).toNat < Config.NB := by decide
theorem witness_HostReadAnswer_unspecified :
    (withMove (.readFb 640#10) State.reset).host = .script [.readFb 640#10] ∧ Config.NB ≤ (640#10 : BitVec 10).toNat ∧
    (withMove (.readFb 0#10) (copying 0#10 [])).host = .script [.readFb 0#10] ∧
    (withMove (.readFb 0#10) (copying 0#10 [])).busy = true := by decide
theorem witness_ReferenceHostReadsOpcode :
    (⟨true, .halt, .readOp⟩ : RefHost).tick = .readOp ∧ State.reset.phase = .idle ∧
    ([0x05#8, 0x02#8] : List Byte)[1]? = some 0x02#8 ∧ ([0x05#8, 0x02#8] : List Byte).length ≤ 2 ∧
    (⟨true, .halt, .readOp⟩ : RefHost).loop = true ∧ (⟨false, .halt, .readOp⟩ : RefHost).loop = false := by decide
theorem witness_ReferenceHostEndsTick :
    (⟨true, .halt, .waiting⟩ : RefHost).tick = .waiting ∧ (⟨true, .halt, .waiting⟩ : RefHost).onFault = .halt ∧
    (⟨true, .restart, .waiting⟩ : RefHost).onFault = .restart ∧
    (frameEnd (started 0x00#8 [])).phase = .idle ∧ (frameEnd (started 0x00#8 [])).done = true ∧
    (frameEnd (started 0x00#8 [])).fault = false ∧ 639 < Config.NB ∧
    (raiseFault .trunc (copying 0#10 [])).phase = .idle ∧ (raiseFault .trunc (copying 0#10 [])).done = false ∧
    (raiseFault .trunc (copying 0#10 [])).fault = true := by decide
/-- An edge at which every pin is low and nothing of the free latency happens. -/
def quietPins : Pins := ⟨false, false, 0x00#8, false, false, 0x00#8, false, 0#10, false, false⟩

/-- For `ClockEdgeEvents`: the pins of its clauses, the phases, and both kinds of source. -/
theorem witness_ClockEdgeEvents :
    (withMove (.edge quietPins) State.reset).host = .script [.edge quietPins] ∧ quietPins.rst = false ∧
    quietPins.readNow = false ∧ quietPins.cmdValid = false ∧ quietPins.srcFail = false ∧ quietPins.srcValid = false ∧
    quietPins.dispatchNow = false ∧ ({ quietPins with rst := true } : Pins).rst = true ∧
    ({ quietPins with cmdValid := true, cmdOpcode := 0xFF#8 } : Pins).cmdValid = true ∧
    ({ quietPins with srcFail := true, srcValid := true } : Pins).srcFail = true ∧
    ({ quietPins with srcValid := true, srcData := 0xAB#8 } : Pins).srcValid = true ∧
    ({ quietPins with dispatchNow := true } : Pins).dispatchNow = true ∧
    State.reset.phase = .idle ∧ (started 0xFF#8 []).phase = .dispatch ∧ (started 0xFF#8 []).phase ≠ .idle ∧
    (copying 0#10 []).srcReq = true := by decide
theorem witness_ClockEdgeEvents_byte :
    pull (.stream [0x01#8, 0xAB#8] 1) = (some (.byte 0xAB#8), .stream [0x01#8, 0xAB#8] 2) := by decide
theorem witness_ClockEdgeEvents_no_byte (b : Byte) (rest : Source) :
    pull (.stream [0x01#8, 0xAB#8] 2) ≠ (some (.byte b), rest) ∧ pull (.script []) ≠ (some (.byte b), rest) ∧
    pull (.script [.fail]) ≠ (some (.byte b), rest) := by simp [pull]

/-- For `ClockEdgeReads`: a read requested at an idle edge, and the state `u` after it with one read pending. -/
theorem witness_ClockEdgeReads_request :
    seen (fun u => (u.busy, u.pendingReads))
      (step (withMove (.edge { quietPins with fbRen := true, fbRaddr := 639#10 }) State.reset))
    = some (false, [⟨639#10, true⟩]) ∧ State.reset.pendingReads = [] ∧ (639#10 : BitVec 10).toNat < Config.NB := by decide
theorem witness_ClockEdgeReads_none_pending :
    seen (·.pendingReads) (step (withMove (.edge quietPins) State.reset)) = some [] ∧
    ({ quietPins with readNow := true } : Pins).readNow = true ∧ quietPins.fbRen = false ∧
    State.reset.phase = .idle := by decide
theorem witness_ClockEdgeReads_unspecified :
    seen (·.pendingReads) (step (withMove (.edge { quietPins with fbRen := true, fbRaddr := 640#10 }) State.reset))
      = some [⟨640#10, true⟩] ∧ Config.NB ≤ (640#10 : BitVec 10).toNat ∧
    seen (·.pendingReads) (step (withMove (.edge { quietPins with fbRen := true }) (copying 0#10 [])))
      = some [⟨0#10, false⟩] ∧
    seen (·.pendingReads)
      (step (withMove (.edge { quietPins with cmdValid := true }) { State.reset with pendingReads := [⟨1#10, true⟩] }))
      = some [⟨1#10, false⟩] := by decide

end Sys2Proof.Tests
end

section
/-! The invariant of 10_state.md, kept by every step. Its parts that speak of the CORE alone (`State.CoreInv`) follow from
the case split of `step_event`; its parts that speak of the read port and the byte source (`State.EnvInv`), which
`step_event` leaves open, follow agent by agent. -/

namespace Sys2Proof.Machine

/-! ### The CORE's part of the invariant, and the four ways to meet it -/

/-- The parts of `State.Inv` that do not read the environment. -/
structure State.CoreInv (s : State) : Prop where
  memory : Memory.wf s.fb
  flags : s.FlagsInv
  pass : s.PassInv
  copy : s.CopyInv
  opcode : s.OpcodeInv
  fresh : s.FreshInv

theorem State.Inv.coreInv {s : State} (h : s.Inv) : s.CoreInv :=
  ⟨h.memory, h.flags, h.pass, h.copy, h.opcode, h.fresh⟩

/-- `CoreInv` reads no field of the environment. -/
theorem SameCore.coreInv {s t : State} (h : SameCore s t) (hs : s.CoreInv) : t.CoreInv := by
  unfold SameCore at h
  rw [h]
  exact ⟨hs.memory, hs.flags, hs.pass, hs.copy, hs.opcode, hs.fresh⟩

/-- The memory is canonical, and the cursor and the raw index lie in their ranges (R24, R28). -/
structure State.InRange (s : State) : Prop where
  memory : Memory.wf s.fb
  cursor : s.cursor.toNat ≤ Config.P
  ridx : s.ridx.toNat ≤ Config.NB

/-- No flag of the current frame is set (R29): `SF` is not one of them. -/
structure State.FlagsClear (s : State) : Prop where
  done : s.done = false
  fault : s.fault = false
  unk : s.unk = false
  fcode : s.fcode = .noFault

theorem State.CoreInv.inRange {s : State} (h : s.CoreInv) : s.InRange := ⟨h.memory, h.pass.1, h.copy.1⟩

/-- While `BUSY` is 1 the flags of the frame are clear (R29). -/
theorem State.CoreInv.flagsClear {s : State} (h : s.CoreInv) (hp : s.phase ≠ .idle) : s.FlagsClear := by
  obtain ⟨hbusy, -, hunk, -, hcode⟩ := h.flags
  obtain ⟨hd, hf⟩ := hbusy (by simp [State.busy, hp])
  exact ⟨hd, hf, by simpa [hd] using hunk, by simpa [hf] using hcode⟩

/-- What a pass in progress knows of its cursor, its opcode and its mode (R24, R26). -/
theorem State.CoreInv.pass_of_run {s : State} (h : s.CoreInv) (hp : s.phase = .run) :
    s.cursor.toNat < Config.P ∧ (s.op = 0x02#8 ∧ s.mode = .ovr ∨ s.op = 0x03#8 ∧ s.mode = .xor) := h.pass.2.1 hp

/-- What a raw copy in progress knows of its index and its opcode (R28). -/
theorem State.CoreInv.copy_of_raw {s : State} (h : s.CoreInv) (hp : s.phase = .raw) :
    s.ridx.toNat < Config.NB ∧ s.op = 0x01#8 := h.copy.2.1 hp

/-- Before the first `START`: the control state has its reset values (R37). -/
theorem coreInv_of_fresh {t : State} (hfb : t.fb = []) (hp : t.phase = .idle) (hc : t.FlagsClear) (hsf : t.sf = false)
    (hop : t.op = 0x00#8) (hcur : t.cursor = 0#13) (hridx : t.ridx = 0#10) (hmode : t.mode = .ovr) : t.CoreInv where
  memory := hfb ▸ Memory.nil_wf
  flags := by simp [State.FlagsInv, State.busy, hp, hc.done, hc.fault, hc.unk, hc.fcode]
  pass := by simp [State.PassInv, hp, hc.done, hc.fault, hcur]
  copy := by simp [State.CopyInv, hp, hc.done, hc.fault, hridx]
  opcode := by simp [State.OpcodeInv, hc.done, hc.fault, hc.fcode]
  fresh _ _ _ := ⟨hop, hcur, hridx, hsf, hmode⟩

/-- A frame in progress. -/
theorem coreInv_of_busy {t : State} (hr : t.InRange) (hp : t.phase ≠ .idle) (hc : t.FlagsClear)
    (hrun : t.phase = .run →
      t.cursor.toNat < Config.P ∧ (t.op = 0x02#8 ∧ t.mode = .ovr ∨ t.op = 0x03#8 ∧ t.mode = .xor))
    (hraw : t.phase = .raw → t.ridx.toNat < Config.NB ∧ t.op = 0x01#8) : t.CoreInv where
  memory := hr.memory
  flags := by simp [State.FlagsInv, hc.done, hc.fault, hc.unk, hc.fcode]
  pass := ⟨hr.cursor, hrun, by simp [hc.done, hc.fault]⟩
  copy := ⟨hr.ridx, hraw, by simp [hc.done, hc.fault]⟩
  opcode := by simp [State.OpcodeInv, hc.done, hc.fault, hc.fcode]
  fresh := by simp [State.FreshInv, State.busy, hp]

/-- A frame that ended normally. -/
theorem coreInv_of_done {t : State} (hr : t.InRange) (hp : t.phase = .idle) (hd : t.done = true) (hf : t.fault = false)
    (hcode : t.fcode = .noFault) (hunk : t.unk = true ↔ 6 ≤ t.op.toNat)
    (hpass : t.op = 0x02#8 ∨ t.op = 0x03#8 → t.cursor.toNat = Config.P)
    (hcopy : t.op = 0x01#8 → t.ridx.toNat = Config.NB) : t.CoreInv where
  memory := hr.memory
  flags := by simp [State.FlagsInv, State.busy, hp, hd, hf, hcode]
  pass := ⟨hr.cursor, by simp [hp], fun h => ⟨fun _ => hpass h, by simp [hf]⟩⟩
  copy := ⟨hr.ridx, by simp [hp], fun h => ⟨fun _ => hcopy h, by simp [hf]⟩⟩
  opcode := ⟨fun _ => hunk, by simp [hf], by simp [hcode]⟩
  fresh := by simp [State.FreshInv, hd]

/-- A frame that ended with a fault: of a raw copy cut short, or of a pass. -/
theorem coreInv_of_fault {t : State} (hr : t.InRange) (hp : t.phase = .idle) (hd : t.done = false) (hf : t.fault = true)
    (hunk : t.unk = false) (hsf : t.sf = true) (hcode : t.fcode ≠ .noFault)
    (hop : t.op = 0x01#8 ∧ t.ridx.toNat < Config.NB ∧ t.fcode ≠ .overrun ∨
      (t.op = 0x02#8 ∨ t.op = 0x03#8) ∧ t.cursor.toNat < Config.P) : t.CoreInv where
  memory := hr.memory
  flags := by simp [State.FlagsInv, State.busy, hp, hd, hf, hunk, hsf, hcode]
  pass := by
    refine ⟨hr.cursor, by simp [hp], fun h => ⟨by simp [hd], fun _ => ?_⟩⟩
    rcases hop with ⟨h1, -, -⟩ | ⟨-, hlt⟩
    · simp [h1] at h
    · exact hlt
  copy := by
    refine ⟨hr.ridx, by simp [hp], fun h => ⟨by simp [hd], fun _ => ?_⟩⟩
    rcases hop with ⟨-, hlt, -⟩ | ⟨h2, -⟩
    · exact hlt
    · simp [h] at h2
  opcode := by
    refine ⟨by simp [hd], fun _ => ?_, fun hov => ?_⟩
    · exact hop.imp (fun h => h.1) (fun h => h.1)
    · rcases hop with ⟨-, -, hno⟩ | ⟨h2, -⟩
      · exact absurd hov hno
      · exact h2
  fresh := by simp [State.FreshInv, hf]

/-! ### Every event of the CORE keeps its part -/

theorem coreInv_resetEvent (s : State) : (resetEvent s).CoreInv :=
  coreInv_of_fresh rfl rfl ⟨rfl, rfl, rfl, rfl⟩ rfl rfl rfl rfl rfl

theorem State.CoreInv.startFrame {s : State} (h : s.CoreInv) (op : Byte) : (startFrame op s).CoreInv :=
  coreInv_of_busy ⟨h.memory, h.inRange.cursor, h.inRange.ridx⟩ (by simp) ⟨rfl, rfl, rfl, rfl⟩ (by simp) (by simp)

/-- The effect of a dispatch by the opcode byte in `OP` (40_dispatcher.md R91, R97). -/
theorem dispatchEffect_cases (s : State) :
    (s.op = 0x00#8 ∧ dispatchEffect s = frameEnd s) ∨
    (s.op = 0x01#8 ∧ dispatchEffect s = { s with ridx := 0#10, phase := .raw }) ∨
    (s.op = 0x02#8 ∧ dispatchEffect s = beginPass .ovr s) ∨
    (s.op = 0x03#8 ∧ dispatchEffect s = beginPass .xor s) ∨
    (s.op = 0x04#8 ∧ dispatchEffect s = frameEnd (fbFill 0x00#8 s)) ∨
    (s.op = 0x05#8 ∧ dispatchEffect s = frameEnd (fbFill 0xFF#8 s)) ∨
    (6 ≤ s.op.toNat ∧ dispatchEffect s = frameEnd { s with unk := true }) := by
  unfold dispatchEffect
  rcases classify_cases s.op with ⟨h, hc⟩ | ⟨h, hc⟩ | ⟨h, hc⟩ | ⟨h, hc⟩ | ⟨h, hc⟩ | ⟨h, hc⟩ | ⟨h, hc⟩ <;>
    simp only [hc] <;> simp [h]

/-- A frame without payload ends at its dispatch: `UNK` is the one flag it may set (40 R92, R93; 45 R145, R146). -/
theorem coreInv_frameEnd {t : State} (hr : t.InRange) (hf : t.fault = false) (hcode : t.fcode = .noFault)
    (hunk : t.unk = true ↔ 6 ≤ t.op.toNat) (hop : t.op ≠ 0x01#8 ∧ t.op ≠ 0x02#8 ∧ t.op ≠ 0x03#8) :
    (frameEnd t).CoreInv := by
  obtain ⟨h1, h2, h3⟩ := hop
  exact coreInv_of_done ⟨hr.memory, hr.cursor, hr.ridx⟩ rfl rfl hf hcode hunk (by simp [h2, h3]) (by simp [h1])

theorem State.InRange.fbFill {s : State} (h : s.InRange) (v : Byte) : (fbFill v s).InRange :=
  ⟨Memory.filled_wf v, h.cursor, h.ridx⟩

/-- A pass begins at pixel 0 in the mode of its opcode (43 R125, 44 R135). -/
theorem State.CoreInv.beginPass {s : State} (h : s.CoreInv) (hp : s.phase = .dispatch) {mode : Mode}
    (hop : s.op = 0x02#8 ∧ mode = .ovr ∨ s.op = 0x03#8 ∧ mode = .xor) : (beginPass mode s).CoreInv := by
  have hc : s.FlagsClear := h.flagsClear (by simp [hp])
  exact coreInv_of_busy ⟨h.memory, by simp, h.inRange.ridx⟩ (by simp) ⟨hc.done, hc.fault, hc.unk, hc.fcode⟩
    (fun _ => ⟨by simp [P_value], hop⟩) (by simp)

theorem State.CoreInv.dispatchEffect {s : State} (h : s.CoreInv) (hp : s.phase = .dispatch) :
    (dispatchEffect s).CoreInv := by
  have hc : s.FlagsClear := h.flagsClear (by simp [hp])
  have hr := h.inRange
  rcases dispatchEffect_cases s with ⟨hop, he⟩ | ⟨hop, he⟩ | ⟨hop, he⟩ | ⟨hop, he⟩ | ⟨hop, he⟩ | ⟨hop, he⟩ | ⟨hop, he⟩ <;>
    rw [he]
  · exact coreInv_frameEnd hr hc.fault hc.fcode (by simp [hc.unk, hop]) (by simp [hop])
  · exact coreInv_of_busy ⟨hr.memory, hr.cursor, by simp⟩ (by simp) ⟨hc.done, hc.fault, hc.unk, hc.fcode⟩ (by simp)
      (by simp [hop, NB_value])
  · exact h.beginPass hp (Or.inl ⟨hop, rfl⟩)
  · exact h.beginPass hp (Or.inr ⟨hop, rfl⟩)
  · exact coreInv_frameEnd (hr.fbFill _) hc.fault hc.fcode (by simp [hc.unk, hop]) (by simp [hop])
  · exact coreInv_frameEnd (hr.fbFill _) hc.fault hc.fcode (by simp [hc.unk, hop]) (by simp [hop])
  · refine coreInv_frameEnd ⟨hr.memory, hr.cursor, hr.ridx⟩ hc.fault hc.fcode (by simp [hop]) ⟨?_, ?_, ?_⟩ <;>
      · rintro (h' : s.op = _)
        simp [h'] at hop

/-- A payload decoder may raise `FC_TRUNC`, a run pass also `FC_OVERRUN` (60_exceptions.md R171). -/
theorem State.CoreInv.raiseFault {s : State} (h : s.CoreInv) {code : FaultCode} (hcode : code ≠ .noFault)
    (hp : s.phase = .raw ∧ code ≠ .overrun ∨ s.phase = .run) : (raiseFault code s).CoreInv := by
  have hc : s.FlagsClear := h.flagsClear (by rcases hp with ⟨hp, -⟩ | hp <;> simp [hp])
  refine coreInv_of_fault ⟨h.memory, h.inRange.cursor, h.inRange.ridx⟩ rfl hc.done rfl hc.unk rfl hcode ?_
  rcases hp with ⟨hp, hno⟩ | hp
  · obtain ⟨hlt, hop⟩ := h.copy_of_raw hp
    exact Or.inl ⟨hop, hlt, hno⟩
  · obtain ⟨hlt, hop⟩ := h.pass_of_run hp
    exact Or.inr ⟨hop.imp And.left And.left, hlt⟩

/-- A raw byte moves the index up by one; the last one ends the frame with the index at `NB` (41 R106). -/
theorem State.CoreInv.copyByte {s : State} (h : s.CoreInv) (hp : s.phase = .raw) (d : Byte) : (copyByte d s).CoreInv := by
  have hc : s.FlagsClear := h.flagsClear (by simp [hp])
  obtain ⟨hlt, hop⟩ := h.copy_of_raw hp
  have hidx : (BitVec.ofNat 10 (s.ridx.toNat + 1)).toNat = s.ridx.toNat + 1 := ridx_toNat hlt
  have hmem : Memory.wf (Memory.set s.fb s.ridx.toNat d) := Memory.set_wf d h.memory hlt
  rw [copyByte_frame]
  by_cases hlast : s.ridx.toNat + 1 = Config.NB
  · exact coreInv_of_done ⟨hmem, h.inRange.cursor, hidx.trans_le hlt⟩ (by simp [hlast]) (by simp [hlast]) hc.fault hc.fcode
      (by simp [hc.unk, hop]) (by simp [hop]) (fun _ => hidx.trans hlast)
  · exact coreInv_of_busy ⟨hmem, h.inRange.cursor, hidx.trans_le hlt⟩ (by simp [hlast, hp])
      ⟨by simp [hlast, hc.done], hc.fault, hc.unk, hc.fcode⟩ (by simp [hlast, hp])
      (fun _ => ⟨hidx.trans_lt (by omega), hop⟩)

/-- A run byte moves the cursor up inside the frame, or ends the pass with the cursor at `P`, or overruns (43 R126). -/
theorem State.CoreInv.runByte {s : State} (h : s.CoreInv) (hp : s.phase = .run) (n : BitVec 7) (v : Bool) :
    (runByte n v s).CoreInv := by
  by_cases hle : s.cursor.toNat + n.toNat ≤ Config.P
  · have hc : s.FlagsClear := h.flagsClear (by simp [hp])
    obtain ⟨-, hop⟩ := h.pass_of_run hp
    have hcur : (BitVec.ofNat 13 (s.cursor.toNat + n.toNat)).toNat = s.cursor.toNat + n.toNat := cursor_toNat hle
    have hmem := spanWrite_wf v s.mode hle h.memory
    rw [runByte_frame hle]
    by_cases hlast : s.cursor.toNat + n.toNat = Config.P
    · exact coreInv_of_done ⟨hmem, hcur.trans_le hle, h.inRange.ridx⟩ (by simp [hlast]) (by simp [hlast]) hc.fault hc.fcode
        (by rcases hop with ⟨hop, -⟩ | ⟨hop, -⟩ <;> simp [hc.unk, hop]) (fun _ => hcur.trans hlast)
        (by rcases hop with ⟨hop, -⟩ | ⟨hop, -⟩ <;> simp [hop])
    · exact coreInv_of_busy ⟨hmem, hcur.trans_le hle, h.inRange.ridx⟩ (by simp [hlast, hp])
        ⟨by simp [hlast, hc.done], hc.fault, hc.unk, hc.fcode⟩
        (fun _ => ⟨hcur.trans_lt (by omega), hop⟩) (by simp [hlast, hp])
  · rw [runByte_overrun (by omega)]
    exact h.raiseFault (by simp) (Or.inr hp)

theorem CoreEvent.keeps_coreInv {s t : State} (he : CoreEvent s t) (h : s.CoreInv) : t.CoreInv := by
  cases he with
  | quiet => exact h
  | start _ op => exact h.startFrame op
  | reset => exact coreInv_resetEvent s
  | dispatch hp => exact h.dispatchEffect hp
  | trunc hp => exact h.raiseFault (by simp) (hp.imp (fun hp => ⟨hp, by simp⟩) id)
  | copy hp _ d => exact h.copyByte hp d
  | run hp n v => exact h.runByte hp n v

theorem step_keeps_coreInv {s t : State} (hs : step s = .next t) (h : s.CoreInv) : t.CoreInv := by
  obtain ⟨u, hu, hut⟩ := step_event hs
  exact hut.coreInv (hu.keeps_coreInv h)

/-! ### The environment's part: the pending reads and the byte source -/

/-- The parts of `State.Inv` that read the environment. -/
structure State.EnvInv (s : State) : Prop where
  reads : s.ReadsInv
  source : s.source.Inv

/-- While `BUSY` is 0 the invariant asks nothing of the pending reads. -/
theorem readsInv_of_idle {s : State} (hp : s.phase = .idle) : s.ReadsInv := by
  simp [State.ReadsInv, State.busy, hp]

/-- No pending read gains a specified answer where `BUSY` does not fall and no read joins. -/
theorem State.ReadsInv.mono {s t : State} (h : s.ReadsInv) (hb : t.busy = true → s.busy = true)
    (hr : ∀ r ∈ t.pendingReads, r ∈ s.pendingReads) : t.ReadsInv :=
  fun hbusy r hmem => h (hb hbusy) r (hr r hmem)

theorem pull_keeps_inv {src : Source} (h : src.Inv) : (pull src).2.Inv := by
  cases src with
  | script answers => cases answers <;> trivial
  | stream bytes sp =>
    simp only [pull]
    split
    · rename_i b hb
      exact (List.getElem?_eq_some_iff.1 hb).1
    · exact h

theorem consume_keeps_inv (a : Option Answer) {src : Source} (h : src.Inv) : (consume a src).Inv := by
  have hpull := pull_keeps_inv h
  unfold consume
  split
  · rename_i hp
    rwa [hp] at hpull
  · exact h

theorem rewind_inv (src : Source) : (rewind src).Inv := by
  cases src with
  | script answers => trivial
  | stream bytes sp => exact Nat.zero_le _

theorem withdrawPull_keeps_inv (epoch : Nat) {src : Source} (h : src.Inv) : (withdrawPull epoch src).Inv := by
  cases src with
  | script answers => trivial
  | stream bytes sp =>
    simp only [withdrawPull]
    split
    · rename_i htaken
      simp only [Bool.and_eq_true, decide_eq_true_eq] at htaken
      exact htaken.2
    · exact h

theorem State.EnvInv.resetEvent {s : State} (h : s.EnvInv) : (resetEvent s).EnvInv where
  reads := readsInv_of_idle rfl
  source := by
    rw [resetEvent_source]
    split
    · exact withdrawPull_keeps_inv _ h.source
    · exact h.source

/-- An accepted `START` takes the specified answer from every pending read (46 R162). -/
theorem State.EnvInv.startFrame {s : State} (h : s.source.Inv) (op : Byte) : (startFrame op s).EnvInv where
  reads _ r hr := by
    obtain ⟨r', -, rfl⟩ := List.mem_map.1 (startFrame_pendingReads op s ▸ hr)
    rfl
  source := h

theorem answerRead_pendingReads (a : BitVec 10) (b : Bool) (s : State) :
    (answerRead a b s).pendingReads = s.pendingReads := by
  unfold answerRead; split <;> rfl

theorem answerRead_source (a : BitVec 10) (b : Bool) (s : State) : (answerRead a b s).source = s.source := by
  unfold answerRead; split <;> rfl

/-- `BUSY` is part of the CORE. -/
theorem SameCore.busy {s t : State} (h : SameCore s t) : t.busy = s.busy := by
  obtain ⟨-, -, hp, -⟩ := h.fields
  simp [State.busy, hp]

theorem State.EnvInv.answerRead {s : State} (h : s.EnvInv) (a : BitVec 10) (b : Bool) : (answerRead a b s).EnvInv where
  reads :=
    h.reads.mono (fun hb => (answerRead_sameCore a b s).busy ▸ hb) (fun _ hr => answerRead_pendingReads a b s ▸ hr)
  source := answerRead_source a b s ▸ h.source

/-- A read requested while `BUSY` is 1 has no specified answer (46 R162). -/
theorem State.EnvInv.requestRead {s : State} (h : s.EnvInv) (p : Pins) : (requestRead p s).EnvInv where
  reads hbusy r hr := by
    have hb : s.busy = true := hbusy
    rcases List.mem_append.1 hr with hr | hr
    · exact h.reads hb r hr
    · split at hr
      · rw [List.mem_singleton.1 hr, hb]; rfl
      · cases hr
  source := h.source

theorem State.EnvInv.answerOldest {s : State} (h : s.EnvInv) : (answerOldest s).EnvInv := by
  unfold Machine.answerOldest
  split
  · exact h
  · rename_i r rest hpend
    have hrest : State.EnvInv { s with pendingReads := rest } :=
      ⟨h.reads.mono id (fun r' hr' => hpend ▸ List.mem_cons_of_mem _ hr'), h.source⟩
    exact hrest.answerRead r.addr r.stable

/-- A CORE step never makes `BUSY` 1. -/
theorem coreStep_busy {a : Option Answer} {s t : State} (h : coreStep a s = .next t) (hb : t.busy = true) :
    s.busy = true := by
  by_contra hidle
  have hp : s.phase = .idle := by simpa [State.busy] using hidle
  simp only [coreStep, hp] at h
  cases h
  exact hidle hb

theorem coreStep_keeps_envInv {a : Option Answer} {s t : State} (h : coreStep a s = .next t) (hs : s.EnvInv) :
    t.EnvInv where
  reads := hs.reads.mono (coreStep_busy h) (fun _ hr => (coreStep_port h).1 ▸ hr)
  source := coreStep_source h ▸ hs.source

theorem coreTurn_keeps_envInv {s t : State} (h : coreTurn s = .next t) (hs : s.EnvInv) : t.EnvInv := by
  unfold coreTurn at h
  split at h
  · exact coreStep_keeps_envInv h ⟨hs.reads, pull_keeps_inv hs.source⟩
  · exact coreStep_keeps_envInv h hs

theorem edgeEvent_keeps_envInv {p : Pins} {s t : State} (h : edgeEvent p s = .next t) (hs : s.EnvInv) : t.EnvInv := by
  unfold edgeEvent at h
  split at h
  · cases h
    split
    · exact State.EnvInv.startFrame hs.source _
    · exact hs
  · split at h
    · exact coreStep_keeps_envInv h ⟨hs.reads, consume_keeps_inv _ hs.source⟩
    · split at h
      · exact coreStep_keeps_envInv h hs
      · cases h; exact hs

/-- A clock edge that answers a next state: a reset, or a request, the port's event and perhaps an answer, in this order
(46 R159 to R163). -/
theorem clockEdge_next {p : Pins} {s t : State} (h : clockEdge p s = .next t) :
    (p.rst = true ∧ t = resetEvent { s with readOut := none }) ∨
    (p.rst = false ∧ ∃ u, edgeEvent p (requestRead p s) = .next u ∧ t = if p.readNow then answerOldest u else u) := by
  unfold clockEdge at h
  split at h
  · rename_i hr; cases h; exact Or.inl ⟨hr, rfl⟩
  · rename_i hr
    split at h
    · rename_i u hu; cases h; exact Or.inr ⟨by simpa using hr, u, hu, rfl⟩
    · cases h
    · cases h

theorem clockEdge_keeps_envInv {p : Pins} {s t : State} (h : clockEdge p s = .next t) (hs : s.EnvInv) : t.EnvInv := by
  rcases clockEdge_next h with ⟨-, rfl⟩ | ⟨-, u, hu, rfl⟩
  · exact State.EnvInv.resetEvent (s := { s with readOut := none }) ⟨hs.reads, hs.source⟩
  · have hu := edgeEvent_keeps_envInv hu (hs.requestRead p)
    split
    · exact hu.answerOldest
    · exact hu

theorem hostMove_keeps_envInv {m : HostMove} {s t : State} (h : hostMove m s = .next t) (hs : s.EnvInv) : t.EnvInv := by
  cases m with
  | wait => exact coreTurn_keeps_envInv h hs
  | start op =>
    cases h
    unfold offerStart
    split
    · exact State.EnvInv.startFrame hs.source op
    · exact hs
  | readFb a => cases h; exact hs.answerRead a _
  | reset => cases h; exact hs.resetEvent
  | edge p => exact clockEdge_keeps_envInv h hs

theorem tickRead_keeps_envInv (r : RefHost) {s : State} (hs : s.EnvInv) : (tickRead r s).EnvInv := by
  have hpull := pull_keeps_inv hs.source
  unfold tickRead
  split
  · exact hs
  · rename_i op src hp
    rw [hp] at hpull
    exact State.EnvInv.startFrame hpull op
  · rename_i src hp
    rw [hp] at hpull
    split
    · exact ⟨hs.reads, rewind_inv src⟩
    · exact ⟨hs.reads, hpull⟩

theorem tickEnd_keeps_envInv (r : RefHost) {s : State} (hs : s.EnvInv) : (tickEnd r s).EnvInv := by
  have hshow : State.EnvInv (if s.done then present s else s) := by
    split
    · exact ⟨hs.reads, hs.source⟩
    · exact hs
  unfold tickEnd
  generalize (if s.done then present s else s) = u at hshow ⊢
  dsimp only
  split
  · split
    · exact ⟨hshow.reads, hshow.source⟩
    · exact ⟨hshow.reads, rewind_inv _⟩
  · exact ⟨hshow.reads, hshow.source⟩

theorem refMove_keeps_envInv (r : RefHost) {s : State} (hs : s.EnvInv) : (refMove r s).EnvInv := by
  unfold refMove
  split
  · exact tickRead_keeps_envInv r hs
  · exact tickEnd_keeps_envInv r hs
  · exact hs

theorem step_keeps_envInv {s t : State} (h : step s = .next t) (hs : s.EnvInv) : t.EnvInv := by
  unfold step nextEvent at h
  split at h
  · exact coreTurn_keeps_envInv h hs
  · exact hostMove_keeps_envInv h ⟨hs.reads, hs.source⟩
  · split at h
    · exact coreTurn_keeps_envInv h hs
    · cases h; exact refMove_keeps_envInv _ hs

theorem inv_of_parts {s : State} (hc : s.CoreInv) (he : s.EnvInv) : s.Inv :=
  ⟨hc.memory, hc.flags, hc.pass, hc.copy, hc.opcode, hc.fresh, he.reads, he.source⟩

/-- Settles O35: the CORE's part by the events of a step, the environment's part agent by agent. -/
theorem stepKeepsTheInvariant : Obligations.StepKeepsTheInvariant := fun _ _ hs hstep =>
  inv_of_parts (step_keeps_coreInv hstep hs.coreInv) (step_keeps_envInv hstep ⟨hs.reads, hs.source⟩)

/-- Settles O34: after reset the control state is fresh, no read is pending and the source is an empty script. -/
theorem resetMeetsTheInvariant : Obligations.ResetMeetsTheInvariant :=
  inv_of_parts (coreInv_of_fresh rfl rfl ⟨rfl, rfl, rfl, rfl⟩ rfl rfl rfl rfl rfl) ⟨readsInv_of_idle rfl, trivial⟩

end Sys2Proof.Machine
end

section
/-! The status word and the state after reset (10_state.md R37, R38). -/

namespace Sys2Proof.Machine

/-- Settles O13: every field of `State.reset` is written out in it, and no byte is listed. -/
theorem resetState : Obligations.ResetState :=
  ⟨rfl, rfl, rfl, rfl, rfl, rfl, rfl, rfl, rfl, rfl, by decide, fun _ => rfl⟩

/-- The bits of the word that `State.status` puts together (R38). -/
theorem statusBits_layout : ∀ (code : BitVec 3) (sf unk fault done busy : Bool),
    let w : Byte := code ++ BitVec.ofBool sf ++ BitVec.ofBool unk ++ BitVec.ofBool fault ++ BitVec.ofBool done
      ++ BitVec.ofBool busy
    w.getLsbD 0 = busy ∧ w.getLsbD 1 = done ∧ w.getLsbD 2 = fault ∧ w.getLsbD 3 = unk ∧ w.getLsbD 4 = sf ∧
      w.extractLsb' 5 3 = code ∧ w.toNat / 32 = code.toNat := by
  decide

/-- Settles O16: the layout of the word for every value of its fields, with the codes of `FCODE`. -/
theorem statusWordLayout : Obligations.StatusWordLayout := by
  intro s
  obtain ⟨h0, h1, h2, h3, h4, hcode, hdiv⟩ := statusBits_layout s.fcode.bits s.sf s.unk s.fault s.done s.busy
  have hbits (code : FaultCode) (h : s.fcode = code) : s.status.toNat / 32 = code.bits.toNat := h ▸ hdiv
  exact ⟨h0, h1, h2, h3, h4, hcode, hbits .noFault, hbits .trunc, hbits .overrun, by simp [State.busy], rfl, rfl, rfl⟩

/-- The four situations of a CORE that meets the invariant: before the first `START`, a frame in progress, a frame that
ended normally, a frame that faulted (R29, R30). -/
theorem State.CoreInv.situation {s : State} (h : s.CoreInv) :
    (s.busy = false ∧ s.FlagsClear ∧ s.sf = false) ∨
    (s.busy = true ∧ s.FlagsClear) ∨
    (s.busy = false ∧ s.done = true ∧ s.fault = false ∧ s.fcode = .noFault) ∨
    (s.busy = false ∧ s.done = false ∧ s.unk = false ∧ s.fault = true ∧ s.sf = true ∧ s.fcode ≠ .noFault) := by
  obtain ⟨hbusy, hdone, hunk, hsf, hcode⟩ := h.flags
  cases hb : s.busy
  case true => exact Or.inr (Or.inl ⟨rfl, h.flagsClear (by simpa [State.busy] using hb)⟩)
  case false =>
    cases hf : s.fault
    case true =>
      have hd : s.done = false := by simpa [hf] using hdone
      exact Or.inr (Or.inr (Or.inr ⟨rfl, hd, by simpa [hd] using hunk, rfl, hsf hf, hcode.1 hf⟩))
    case false =>
      have hc : s.fcode = .noFault := by simpa [hf] using hcode
      cases hd : s.done
      case true => exact Or.inr (Or.inr (Or.inl ⟨rfl, rfl, rfl, hc⟩))
      case false =>
        obtain ⟨-, -, -, hsf0, -⟩ := h.fresh hb hd hf
        exact Or.inl ⟨rfl, ⟨hd, hf, by simpa [hd] using hunk, hc⟩, hsf0⟩

/-- Settles O38: in each situation the flags that are still free give the words of table B7. -/
theorem statusValues : Obligations.StatusValues := by
  intro s hs
  unfold State.status
  rcases hs.coreInv.situation with ⟨hb, hc, hsf⟩ | ⟨hb, hc⟩ | ⟨hb, hd, hf, hcode⟩ | ⟨hb, hd, hunk, hf, hsf, hcode⟩
  · rw [hb, hc.done, hc.fault, hc.unk, hc.fcode, hsf]; decide
  · rw [hb, hc.done, hc.fault, hc.unk, hc.fcode]; cases s.sf <;> decide
  · rw [hb, hd, hf, hcode]; cases s.sf <;> cases s.unk <;> decide
  · rw [hb, hd, hunk, hf, hsf]
    cases hk : s.fcode with
    | noFault => exact absurd hk hcode
    | trunc => decide
    | overrun => decide

end Sys2Proof.Machine
end

section
/-! Who writes the frame buffer, `CURSOR`, `OP`, `RIDX` and `MODE` (10_state.md R21 to R28): read off the events of a step
that is not a reset, which the reset counter tells. -/

namespace Sys2Proof.Machine

/-- A step that leaves the reset counter is an event that leaves it. -/
theorem step_event_of_epoch {s t : State} (h : step s = .next t) (hep : t.fbEpoch = s.fbEpoch) :
    ∃ u, CoreEvent s u ∧ u.fbEpoch = s.fbEpoch ∧ SameCore u t := by
  obtain ⟨u, hu, hut⟩ := step_event h
  obtain ⟨-, -, -, -, -, -, -, -, -, -, -, he⟩ := hut.fields
  exact ⟨u, hu, he ▸ hep, hut⟩

theorem resetEvent_fbEpoch_ne (s : State) : (resetEvent s).fbEpoch ≠ s.fbEpoch := Nat.succ_ne_self _

/-! ### The frame buffer -/

/-- Which bytes and pixels a step from `s` to `t` may change, by the phase of `s`. -/
def OnlyThePhaseWrites (s t : State) : Prop :=
  (s.phase = .idle → ∀ j, fbRead t j = fbRead s j) ∧
  (s.phase = .dispatch → s.op ≠ 0x04#8 → s.op ≠ 0x05#8 → ∀ j, fbRead t j = fbRead s j) ∧
  (s.phase = .raw → ∀ j, j ≠ s.ridx.toNat → fbRead t j = fbRead s j) ∧
  (s.phase = .run → ∀ i, ¬ (s.cursor.toNat ≤ i ∧ i < t.cursor.toNat) → pixGet t i = pixGet s i)

theorem onlyThePhaseWrites_of_fb {s t : State} (hfb : t.fb = s.fb) (hep : t.fbEpoch = s.fbEpoch) :
    OnlyThePhaseWrites s t :=
  have hbytes := fbRead_congr hfb hep
  ⟨fun _ => hbytes, fun _ _ _ => hbytes, fun _ j _ => hbytes j, fun _ i _ => pixGet_congr hfb hep i⟩

theorem dispatchEffect_fbEpoch (s : State) : (dispatchEffect s).fbEpoch = s.fbEpoch := by
  rcases dispatchEffect_cases s with ⟨-, he⟩ | ⟨-, he⟩ | ⟨-, he⟩ | ⟨-, he⟩ | ⟨-, he⟩ | ⟨-, he⟩ | ⟨-, he⟩ <;> simp [he]

/-- Of the opcodes only `CLR0` and `CLR1` write the frame buffer at their dispatch (20_memory.md R60). -/
theorem dispatchEffect_fb {s : State} (h4 : s.op ≠ 0x04#8) (h5 : s.op ≠ 0x05#8) : (dispatchEffect s).fb = s.fb := by
  rcases dispatchEffect_cases s with
    ⟨-, he⟩ | ⟨-, he⟩ | ⟨-, he⟩ | ⟨-, he⟩ | ⟨hop, -⟩ | ⟨hop, -⟩ | ⟨-, he⟩
  · simp [he]
  · simp [he]
  · simp [he]
  · simp [he]
  · exact absurd hop h4
  · exact absurd hop h5
  · simp [he]

/-- The cursor after a run byte that does not overrun, as a number. -/
theorem runByte_cursor {n : BitVec 7} {v : Bool} {s : State} (h : s.cursor.toNat + n.toNat ≤ Config.P) :
    (runByte n v s).cursor.toNat = s.cursor.toNat + n.toNat := by
  rw [runByte_frame h]; exact cursor_toNat h

theorem runByte_writes {s : State} (hp : s.phase = .run) (n : BitVec 7) (v : Bool) :
    OnlyThePhaseWrites s (runByte n v s) := by
  by_cases hle : s.cursor.toNat + n.toNat ≤ Config.P
  · refine ⟨by simp [hp], by simp [hp], by simp [hp], fun _ i hi => ?_⟩
    rw [runByte_cursor hle] at hi
    rw [pixGet_runByte hle, if_neg hi]
  · rw [runByte_overrun (by omega)]
    exact onlyThePhaseWrites_of_fb rfl rfl

theorem CoreEvent.writes {s u : State} (he : CoreEvent s u) (hep : u.fbEpoch = s.fbEpoch) : OnlyThePhaseWrites s u := by
  cases he with
  | quiet => exact onlyThePhaseWrites_of_fb rfl rfl
  | start _ op => exact onlyThePhaseWrites_of_fb rfl rfl
  | reset => exact absurd hep (resetEvent_fbEpoch_ne s)
  | dispatch hp =>
    exact ⟨by simp [hp], fun _ h4 h5 => fbRead_congr (dispatchEffect_fb h4 h5) hep, by simp [hp], by simp [hp]⟩
  | trunc _ => exact onlyThePhaseWrites_of_fb rfl rfl
  | copy hp _ d =>
    exact ⟨by simp [hp], by simp [hp], fun _ j hj => (fbRead_copyByte d s j).trans (if_neg hj), by simp [hp]⟩
  | run hp n v => exact runByte_writes hp n v

/-- Settles O39: by the event of the step; the environment holds no frame buffer byte. -/
theorem frameBufferWriters : Obligations.FrameBufferWriters := by
  intro s t hstep hep
  obtain ⟨u, hu, heu, hut⟩ := step_event_of_epoch hstep hep
  obtain ⟨hidle, hdispatch, hraw, hrun⟩ := hu.writes heu
  obtain ⟨hfb, hcur, -, -, -, -, -, -, -, -, -, he⟩ := hut.fields
  have hread := fbRead_congr hfb he
  refine ⟨fun hp j => ?_, fun hp h4 h5 j => ?_, fun hp j hj => ?_, fun hp i hi => ?_⟩
  · exact (hread j).trans (hidle hp j)
  · exact (hread j).trans (hdispatch hp h4 h5 j)
  · exact (hread j).trans (hraw hp j hj)
  · exact (pixGet_congr hfb he i).trans (hrun hp i (hcur ▸ hi))

/-! ### CURSOR -/

/-- A dispatch leaves `CURSOR`, or begins a pass at 0 (43 R125, 44 R135). -/
theorem dispatchEffect_cursor (s : State) :
    (dispatchEffect s).cursor = s.cursor ∨ (s.op = 0x02#8 ∨ s.op = 0x03#8) ∧ (dispatchEffect s).cursor = 0#13 := by
  rcases dispatchEffect_cases s with
    ⟨-, he⟩ | ⟨-, he⟩ | ⟨hop, he⟩ | ⟨hop, he⟩ | ⟨-, he⟩ | ⟨-, he⟩ | ⟨-, he⟩ <;> rw [he]
  · exact Or.inl rfl
  · exact Or.inl rfl
  · exact Or.inr ⟨Or.inl hop, rfl⟩
  · exact Or.inr ⟨Or.inr hop, rfl⟩
  · exact Or.inl rfl
  · exact Or.inl rfl
  · exact Or.inl rfl

theorem copyByte_cursor (d : Byte) (s : State) : (copyByte d s).cursor = s.cursor := by rw [copyByte_frame]

/-- A run byte leaves `CURSOR`, or moves it forwards by at most the longest run and not past `P` (R24). -/
theorem runByte_cursor_moves (n : BitVec 7) (v : Bool) (s : State) :
    (runByte n v s).cursor = s.cursor ∨
      s.cursor.toNat < (runByte n v s).cursor.toNat ∧ (runByte n v s).cursor.toNat ≤ s.cursor.toNat + Config.NMAX ∧
        (runByte n v s).cursor.toNat ≤ Config.P := by
  by_cases hle : s.cursor.toNat + n.toNat ≤ Config.P
  · have hmax := runLength_le n
    have hcur := runByte_cursor (v := v) hle
    by_cases hn : n.toNat = 0
    · exact Or.inl (BitVec.eq_of_toNat_eq (by omega))
    · exact Or.inr (by omega)
  · rw [runByte_overrun (by omega)]
    exact Or.inl rfl

theorem CoreEvent.cursor_writers {s u : State} (he : CoreEvent s u) (hep : u.fbEpoch = s.fbEpoch)
    (hne : u.cursor ≠ s.cursor) :
    (s.phase = .dispatch ∧ (s.op = 0x02#8 ∨ s.op = 0x03#8) ∧ u.cursor = 0#13) ∨
    (s.phase = .run ∧ s.cursor.toNat < u.cursor.toNat ∧ u.cursor.toNat ≤ s.cursor.toNat + Config.NMAX ∧
      u.cursor.toNat ≤ Config.P) := by
  cases he with
  | quiet => exact absurd rfl hne
  | start _ op => exact absurd rfl hne
  | reset => exact absurd hep (resetEvent_fbEpoch_ne s)
  | dispatch hp => exact Or.inl ⟨hp, (dispatchEffect_cursor s).resolve_left hne⟩
  | trunc _ => exact absurd rfl hne
  | copy _ _ d => exact absurd (copyByte_cursor d s) hne
  | run hp n v => exact Or.inr ⟨hp, (runByte_cursor_moves n v s).resolve_left hne⟩

/-- Settles O40: by the event of the step. -/
theorem cursorWriters : Obligations.CursorWriters := by
  intro s t hstep hep hne
  obtain ⟨u, hu, heu, hut⟩ := step_event_of_epoch hstep hep
  obtain ⟨-, hcur, -⟩ := hut.fields
  rw [hcur] at hne ⊢
  exact hu.cursor_writers heu hne

/-! ### OP, RIDX and MODE -/

/-- Who may change `OP`, `RIDX` and `MODE` in a step from `s` to `t`. -/
def OpcodeIndexAndModeMoves (s t : State) : Prop :=
  (t.op ≠ s.op → s.phase = .idle ∧ t.phase = .dispatch) ∧
  (t.ridx ≠ s.ridx →
    (s.phase = .dispatch ∧ s.op = 0x01#8 ∧ t.ridx = 0#10) ∨ (s.phase = .raw ∧ t.ridx.toNat = s.ridx.toNat + 1)) ∧
  (t.mode ≠ s.mode → s.phase = .dispatch ∧ (s.op = 0x02#8 ∨ s.op = 0x03#8))

theorem opcodeIndexAndModeMoves_of_eq {s t : State} (hop : t.op = s.op) (hridx : t.ridx = s.ridx)
    (hmode : t.mode = s.mode) : OpcodeIndexAndModeMoves s t :=
  ⟨fun h => absurd hop h, fun h => absurd hridx h, fun h => absurd hmode h⟩

theorem dispatchEffect_moves {s : State} (hp : s.phase = .dispatch) :
    OpcodeIndexAndModeMoves s (dispatchEffect s) := by
  rcases dispatchEffect_cases s with
    ⟨-, he⟩ | ⟨hop, he⟩ | ⟨hop, he⟩ | ⟨hop, he⟩ | ⟨-, he⟩ | ⟨-, he⟩ | ⟨-, he⟩ <;> rw [he]
  · exact opcodeIndexAndModeMoves_of_eq rfl rfl rfl
  · exact ⟨fun h => absurd rfl h, fun _ => Or.inl ⟨hp, hop, rfl⟩, fun h => absurd rfl h⟩
  · exact ⟨fun h => absurd rfl h, fun h => absurd rfl h, fun _ => ⟨hp, Or.inl hop⟩⟩
  · exact ⟨fun h => absurd rfl h, fun h => absurd rfl h, fun _ => ⟨hp, Or.inr hop⟩⟩
  · exact opcodeIndexAndModeMoves_of_eq rfl rfl rfl
  · exact opcodeIndexAndModeMoves_of_eq rfl rfl rfl
  · exact opcodeIndexAndModeMoves_of_eq rfl rfl rfl

theorem copyByte_moves {s : State} (hp : s.phase = .raw) (hlt : s.ridx.toNat < Config.NB) (d : Byte) :
    OpcodeIndexAndModeMoves s (copyByte d s) := by
  rw [copyByte_frame]
  exact ⟨fun h => absurd rfl h, fun _ => Or.inr ⟨hp, ridx_toNat hlt⟩, fun h => absurd rfl h⟩

theorem runByte_moves (n : BitVec 7) (v : Bool) (s : State) : OpcodeIndexAndModeMoves s (runByte n v s) := by
  by_cases hle : s.cursor.toNat + n.toNat ≤ Config.P
  · rw [runByte_frame hle]; exact opcodeIndexAndModeMoves_of_eq rfl rfl rfl
  · rw [runByte_overrun (by omega)]; exact opcodeIndexAndModeMoves_of_eq rfl rfl rfl

theorem CoreEvent.moves {s u : State} (he : CoreEvent s u) (hep : u.fbEpoch = s.fbEpoch) :
    OpcodeIndexAndModeMoves s u := by
  cases he with
  | quiet => exact opcodeIndexAndModeMoves_of_eq rfl rfl rfl
  | start hp op => exact ⟨fun _ => ⟨hp, rfl⟩, fun h => absurd rfl h, fun h => absurd rfl h⟩
  | reset => exact absurd hep (resetEvent_fbEpoch_ne s)
  | dispatch hp => exact dispatchEffect_moves hp
  | trunc _ => exact opcodeIndexAndModeMoves_of_eq rfl rfl rfl
  | copy hp hlt d => exact copyByte_moves hp hlt d
  | run _ n v => exact runByte_moves n v s

/-- Settles O41: by the event of the step. -/
theorem opcodeIndexAndModeWriters : Obligations.OpcodeIndexAndModeWriters := by
  intro s t hstep hep
  obtain ⟨u, hu, heu, hut⟩ := step_event_of_epoch hstep hep
  obtain ⟨-, -, hphase, hmode, hop, hridx, -⟩ := hut.fields
  rw [hphase, hmode, hop, hridx]
  exact hu.moves heu

end Sys2Proof.Machine
end

section
/-! The flags are outputs only (10_state.md R29): every operation of a step, run on two states that differ in the flags
alone, gives two states that differ in the flags alone. -/

namespace Sys2Proof.Machine

/-- `s'` is `s` up to `DONE`, `FAULT`, `UNK`, `SF` and `FCODE`. -/
def SameButFlags (s s' : State) : Prop :=
  ∃ done fault unk sf fcode,
    s' = { s with done := done, fault := fault, unk := unk, sf := sf, fcode := fcode }

theorem sameButFlags_iff {s s' : State} : SameButFlags s s' ↔
    s' = { s with done := s'.done, fault := s'.fault, unk := s'.unk, sf := s'.sf, fcode := s'.fcode } := by
  constructor
  · rintro ⟨done, fault, unk, sf, fcode, rfl⟩; rfl
  · intro h; exact ⟨_, _, _, _, _, h⟩

theorem SameButFlags.fields {s s' : State} (h : SameButFlags s s') :
    s'.phase = s.phase ∧ s'.op = s.op ∧ s'.cursor = s.cursor ∧ s'.ridx = s.ridx ∧ s'.source = s.source ∧
      s'.pendingReads = s.pendingReads ∧ s'.fb = s.fb ∧ s'.fbEpoch = s.fbEpoch := by
  obtain ⟨done, fault, unk, sf, fcode, rfl⟩ := h
  exact ⟨rfl, rfl, rfl, rfl, rfl, rfl, rfl, rfl⟩

/-- The derived flags that steer a step, `cmd_ready`, `src_req` and `BUSY`, are functions of `PHASE`. -/
theorem SameButFlags.derived {s s' : State} (h : SameButFlags s s') :
    s'.cmdReady = s.cmdReady ∧ s'.srcReq = s.srcReq ∧ s'.busy = s.busy := by
  obtain ⟨done, fault, unk, sf, fcode, rfl⟩ := h
  exact ⟨rfl, rfl, rfl⟩

theorem SameButFlags.setSource {s s' : State} (h : SameButFlags s s') (src : Source) :
    SameButFlags { s with source := src } { s' with source := src } := by
  obtain ⟨done, fault, unk, sf, fcode, rfl⟩ := h
  exact ⟨done, fault, unk, sf, fcode, rfl⟩

theorem SameButFlags.setHost {s s' : State} (h : SameButFlags s s') (host : HostSide) :
    SameButFlags { s with host := host } { s' with host := host } := by
  obtain ⟨done, fault, unk, sf, fcode, rfl⟩ := h
  exact ⟨done, fault, unk, sf, fcode, rfl⟩

/-- Wherever the first outcome is a next state, so is the second, and the two differ in the flags alone. -/
def FollowsUpToFlags (o o' : Host.Outcome State Fault Refusal) : Prop :=
  ∀ t, o = .next t → ∃ t', o' = .next t' ∧ SameButFlags t t'

theorem SameButFlags.next {t t' : State} (h : SameButFlags t t') : FollowsUpToFlags (.next t) (.next t') := by
  rintro _ ⟨⟩; exact ⟨t', rfl, h⟩

/-! ### The operations -/

theorem SameButFlags.startFrame {s s' : State} (h : SameButFlags s s') (op : Byte) :
    SameButFlags (startFrame op s) (startFrame op s') := by
  obtain ⟨done, fault, unk, sf, fcode, rfl⟩ := h
  exact ⟨false, false, false, sf, .noFault, rfl⟩

theorem SameButFlags.resetEvent {s s' : State} (h : SameButFlags s s') :
    SameButFlags (resetEvent s) (resetEvent s') := by
  obtain ⟨done, fault, unk, sf, fcode, rfl⟩ := h
  exact ⟨false, false, false, false, .noFault, rfl⟩

theorem SameButFlags.raiseFault {s s' : State} (h : SameButFlags s s') (code : FaultCode) :
    SameButFlags (raiseFault code s) (raiseFault code s') := by
  obtain ⟨done, fault, unk, sf, fcode, rfl⟩ := h
  exact ⟨done, true, unk, true, code, rfl⟩

theorem SameButFlags.dispatchEffect {s s' : State} (h : SameButFlags s s') :
    SameButFlags (dispatchEffect s) (dispatchEffect s') := by
  obtain ⟨done, fault, unk, sf, fcode, rfl⟩ := h
  unfold Machine.dispatchEffect
  dsimp only
  cases classify s.op <;> exact ⟨_, _, _, _, _, rfl⟩

theorem SameButFlags.copyByte {s s' : State} (h : SameButFlags s s') (d : Byte) :
    SameButFlags (copyByte d s) (copyByte d s') := by
  obtain ⟨done, fault, unk, sf, fcode, rfl⟩ := h
  rw [copyByte_frame, copyByte_frame]
  exact ⟨_, _, _, _, _, rfl⟩

theorem SameButFlags.runByte {s s' : State} (h : SameButFlags s s') (n : BitVec 7) (v : Bool) :
    SameButFlags (runByte n v s) (runByte n v s') := by
  obtain ⟨-, -, hcur, -, -, -, hfb, hep⟩ := h.fields
  by_cases hle : s.cursor.toNat + n.toNat ≤ Config.P
  · rw [runByte_frame hle, runByte_frame (hcur ▸ hle), spanWrite_fb_congr hfb hep]
    obtain ⟨done, fault, unk, sf, fcode, rfl⟩ := h
    exact ⟨_, _, _, _, _, rfl⟩
  · rw [runByte_overrun (by omega), runByte_overrun (by rw [hcur]; omega)]
    exact h.raiseFault .overrun

theorem SameButFlags.answerRead {s s' : State} (h : SameButFlags s s') (a : BitVec 10) (b : Bool) :
    SameButFlags (answerRead a b s) (answerRead a b s') := by
  obtain ⟨done, fault, unk, sf, fcode, rfl⟩ := h
  unfold Machine.answerRead
  split <;> exact ⟨done, fault, unk, sf, fcode, rfl⟩

theorem SameButFlags.requestRead {s s' : State} (h : SameButFlags s s') (p : Pins) :
    SameButFlags (requestRead p s) (requestRead p s') := by
  obtain ⟨done, fault, unk, sf, fcode, rfl⟩ := h
  exact ⟨done, fault, unk, sf, fcode, rfl⟩

theorem SameButFlags.answerOldest {s s' : State} (h : SameButFlags s s') :
    SameButFlags (answerOldest s) (answerOldest s') := by
  obtain ⟨-, -, -, -, -, hpend, -⟩ := h.fields
  unfold Machine.answerOldest
  rw [hpend]
  split
  · exact h
  · rename_i r rest _
    have hrest : SameButFlags { s with pendingReads := rest } { s' with pendingReads := rest } := by
      obtain ⟨done, fault, unk, sf, fcode, rfl⟩ := h
      exact ⟨done, fault, unk, sf, fcode, rfl⟩
    exact hrest.answerRead r.addr r.stable

/-! ### The agents -/

theorem SameButFlags.payloadStep {s s' : State} (h : SameButFlags s s') (hs : s.srcReq = true) (a : Option Answer) :
    FollowsUpToFlags (payloadStep a s) (payloadStep a s') := by
  obtain ⟨hphase, -, -, hridx, -⟩ := h.fields
  match a with
  | none => exact h.next
  | some .fail => exact (h.raiseFault .trunc).next
  | some (.byte b) =>
    rcases srcReq_iff.1 hs with hp | hp
    · rw [payloadStep_raw hp, payloadStep_raw (hphase.trans hp), hridx]
      split
      · exact (h.copyByte b).next
      · rintro _ ⟨⟩
    · rw [payloadStep_run hp, payloadStep_run (hphase.trans hp)]
      exact (h.runByte _ _).next

theorem SameButFlags.coreStep {s s' : State} (h : SameButFlags s s') (a : Option Answer) :
    FollowsUpToFlags (coreStep a s) (coreStep a s') := by
  obtain ⟨hphase, -⟩ := h.fields
  cases hp : s.phase <;> rw [hp] at hphase <;> simp only [Machine.coreStep, hp, hphase]
  case idle => exact h.next
  case dispatch =>
    simp only [decodeByte, exec_classify hp, exec_classify hphase]
    exact h.dispatchEffect.next
  case raw => exact h.payloadStep (srcReq_iff.2 (Or.inl hp)) a
  case run => exact h.payloadStep (srcReq_iff.2 (Or.inr hp)) a

theorem SameButFlags.coreTurn {s s' : State} (h : SameButFlags s s') :
    FollowsUpToFlags (coreTurn s) (coreTurn s') := by
  obtain ⟨-, -, -, -, hsrc, -⟩ := h.fields
  obtain ⟨-, hreq, -⟩ := h.derived
  unfold Machine.coreTurn
  rw [hreq, hsrc]
  split
  · exact (h.setSource _).coreStep _
  · exact h.coreStep none

theorem SameButFlags.edgeEvent {s s' : State} (h : SameButFlags s s') (p : Pins) :
    FollowsUpToFlags (edgeEvent p s) (edgeEvent p s') := by
  obtain ⟨-, -, -, -, hsrc, -⟩ := h.fields
  obtain ⟨hready, hreq, -⟩ := h.derived
  unfold Machine.edgeEvent
  rw [hready, hreq, hsrc]
  split
  · split
    · exact (h.startFrame _).next
    · exact h.next
  · split
    · exact (h.setSource _).coreStep _
    · split
      · exact h.coreStep none
      · exact h.next

theorem clockEdge_of_edgeEvent {p : Pins} {s u : State} (hr : p.rst = false) (h : edgeEvent p (requestRead p s) = .next u) :
    clockEdge p s = .next (if p.readNow then answerOldest u else u) := by
  unfold clockEdge
  rw [hr, h]
  rfl

theorem SameButFlags.clockEdge {s s' : State} (h : SameButFlags s s') (p : Pins) :
    FollowsUpToFlags (clockEdge p s) (clockEdge p s') := by
  intro t ht
  rcases clockEdge_next ht with ⟨hr, rfl⟩ | ⟨hr, u, hu, rfl⟩
  · obtain ⟨done, fault, unk, sf, fcode, rfl⟩ := h
    exact ⟨_, if_pos hr, false, false, false, false, .noFault, rfl⟩
  · obtain ⟨u', hu', hflags⟩ := (h.requestRead p).edgeEvent p u hu
    refine ⟨_, clockEdge_of_edgeEvent hr hu', ?_⟩
    split
    · exact hflags.answerOldest
    · exact hflags

theorem SameButFlags.hostMove {s s' : State} (h : SameButFlags s s') (m : HostMove) :
    FollowsUpToFlags (hostMove m s) (hostMove m s') := by
  obtain ⟨hready, -, hbusy⟩ := h.derived
  cases m with
  | wait => exact h.coreTurn
  | start op =>
    refine SameButFlags.next ?_
    unfold offerStart
    rw [hready]
    split
    · exact h.startFrame op
    · exact h
  | readFb a =>
    refine SameButFlags.next ?_
    unfold hostRead
    rw [hbusy]
    exact h.answerRead a _
  | reset => exact h.resetEvent.next
  | edge p => exact h.clockEdge p

/-- Settles O45: under a scripted host a step is the CORE's turn or the next move, and neither reads a flag. -/
theorem flagsDoNotSteer : Obligations.FlagsDoNotSteer := by
  intro s s' t moves hhost hflags hstep
  have h : SameButFlags s s' := sameButFlags_iff.2 hflags
  have hhost' : s'.host = .script moves := by rw [hflags]; exact hhost
  have hfollows : FollowsUpToFlags (step s) (step s') := by
    unfold step nextEvent
    rw [hhost, hhost']
    cases moves with
    | nil => exact h.coreTurn
    | cons m moves => exact (h.setHost _).hostMove m
  obtain ⟨t', ht', htt⟩ := hfollows t hstep
  exact ⟨t', ht', sameButFlags_iff.1 htt⟩

end Sys2Proof.Machine
end

section
/-! Where a step stops (20_memory.md R57): never by a refusal, and by a fault only in a raw copy whose `RIDX` is not below
`NB`. Agent by agent, from the CORE step outwards. -/

namespace Sys2Proof.Machine

/-- An outcome of an event at `s` that is no refusal, and a fault only where a raw copy stands past the frame buffer. -/
def StopsOnlyPastTheFrame (s : State) (o : Host.Outcome State Fault Refusal) : Prop :=
  (∀ r, o ≠ .refused r) ∧ ∀ f, o = .fault f → s.phase = .raw ∧ Config.NB ≤ s.ridx.toNat

theorem stopsOnlyPastTheFrame_next (s t : State) : StopsOnlyPastTheFrame s (.next t) :=
  ⟨nofun, nofun⟩

theorem stopsOnlyPastTheFrame_fault {s : State} (hp : s.phase = .raw) (hle : Config.NB ≤ s.ridx.toNat) (f : Fault) :
    StopsOnlyPastTheFrame s (.fault f) :=
  ⟨nofun, fun _ _ => ⟨hp, hle⟩⟩

theorem payloadStep_stops {s : State} (hs : s.srcReq = true) (a : Option Answer) :
    StopsOnlyPastTheFrame s (payloadStep a s) := by
  match a with
  | none => exact stopsOnlyPastTheFrame_next s _
  | some .fail => exact stopsOnlyPastTheFrame_next s _
  | some (.byte b) =>
    rcases srcReq_iff.1 hs with hp | hp
    · rw [payloadStep_raw hp]
      split
      · exact stopsOnlyPastTheFrame_next s _
      · exact stopsOnlyPastTheFrame_fault hp (by omega) _
    · rw [payloadStep_run hp]
      exact stopsOnlyPastTheFrame_next s _

theorem coreStep_stops (a : Option Answer) (s : State) : StopsOnlyPastTheFrame s (coreStep a s) := by
  unfold coreStep
  split <;> rename_i hp
  · exact stopsOnlyPastTheFrame_next s _
  · rw [show decodeByte .boundary s.op = classify s.op from rfl, exec_classify hp]
    exact stopsOnlyPastTheFrame_next s _
  · exact payloadStep_stops (srcReq_iff.2 (Or.inl hp)) a
  · exact payloadStep_stops (srcReq_iff.2 (Or.inr hp)) a

theorem coreTurn_stops (s : State) : StopsOnlyPastTheFrame s (coreTurn s) := by
  unfold coreTurn
  split
  · exact coreStep_stops _ { s with source := (pull s.source).2 }
  · exact coreStep_stops none s

theorem edgeEvent_stops (p : Pins) (s : State) : StopsOnlyPastTheFrame s (edgeEvent p s) := by
  unfold edgeEvent
  split
  · exact stopsOnlyPastTheFrame_next s _
  · split
    · exact coreStep_stops _ { s with source := consume p.answer s.source }
    · split
      · exact coreStep_stops none s
      · exact stopsOnlyPastTheFrame_next s _

/-- A clock edge stops only where the event of its port does: the read port stops nowhere. -/
theorem clockEdge_stops (p : Pins) (s : State) : StopsOnlyPastTheFrame s (clockEdge p s) := by
  have hedge : StopsOnlyPastTheFrame s (edgeEvent p (requestRead p s)) := edgeEvent_stops p (requestRead p s)
  unfold clockEdge
  split
  · exact stopsOnlyPastTheFrame_next s _
  · cases ho : edgeEvent p (requestRead p s) with
    | next u => exact stopsOnlyPastTheFrame_next s _
    | fault f => rwa [ho] at hedge
    | refused r => exact absurd ho (hedge.1 r)

theorem hostMove_stops (m : HostMove) (s : State) : StopsOnlyPastTheFrame s (hostMove m s) := by
  cases m with
  | wait => exact coreTurn_stops s
  | start op => exact stopsOnlyPastTheFrame_next s _
  | readFb a => exact stopsOnlyPastTheFrame_next s _
  | reset => exact stopsOnlyPastTheFrame_next s _
  | edge p => exact clockEdge_stops p s

/-- Settles O37: a step is the CORE's turn, a scripted move, or a move of the reference host, which stops nowhere. -/
theorem stepStopsOnlyPastTheFrameBuffer : Obligations.StepStopsOnlyPastTheFrameBuffer := by
  intro s
  change StopsOnlyPastTheFrame s (nextEvent s)
  unfold nextEvent
  split
  · exact coreTurn_stops s
  · rename_i m moves _
    exact hostMove_stops m { s with host := .script moves }
  · split
    · exact coreTurn_stops s
    · exact stopsOnlyPastTheFrame_next s _

/-- Settles O36: a step stops only in a raw copy past the frame buffer, where the invariant has `RIDX` below `NB` (R28). -/
theorem invariantStatesAlwaysStep : Obligations.InvariantStatesAlwaysStep := by
  intro s hs
  obtain ⟨hrefused, hfault⟩ := stepStopsOnlyPastTheFrameBuffer s
  cases ho : step s with
  | next t => exact ⟨t, rfl⟩
  | fault f =>
    obtain ⟨hp, hle⟩ := hfault f ho
    obtain ⟨hlt, -⟩ := hs.coreInv.copy_of_raw hp
    omega
  | refused r => exact absurd ho (hrefused r)

end Sys2Proof.Machine
end

section
/-! Who moves the byte source (20_memory.md R56, 46_bytesource_and_host.md R152) under a scripted host: agent by agent, the
source stays or, where the CORE requests a byte, gives one answer. -/

namespace Sys2Proof.Machine

/-- From `s` to `t` the source stays, or it is pulled once while the CORE requests a byte. -/
def SourceMovesByAPull (s t : State) : Prop :=
  t.source = s.source ∨ s.srcReq = true ∧ t.source = (pull s.source).2

/-- A completed handshake on the byte source port consumes what a pull does, or nothing (46 R160; log 27). -/
theorem consume_cases (a : Option Answer) (src : Source) : consume a src = src ∨ consume a src = (pull src).2 := by
  unfold consume
  split
  · rename_i hp
    exact Or.inr (by rw [hp])
  · exact Or.inl rfl

theorem offerStart_source (op : Byte) (s : State) : (offerStart op s).source = s.source := by
  unfold offerStart; split <;> rfl

theorem answerOldest_source (s : State) : (answerOldest s).source = s.source := by
  unfold answerOldest
  split
  · rfl
  · exact answerRead_source _ _ _

theorem coreTurn_source {s t : State} (h : coreTurn s = .next t) : SourceMovesByAPull s t := by
  unfold coreTurn at h
  split at h
  · rename_i hreq
    exact Or.inr ⟨hreq, coreStep_source h⟩
  · exact Or.inl (coreStep_source h)

theorem edgeEvent_source {p : Pins} {s t : State} (h : edgeEvent p s = .next t) : SourceMovesByAPull s t := by
  unfold edgeEvent at h
  split at h
  · cases h
    exact Or.inl (by split <;> rfl)
  · split at h
    · rename_i hreq
      have hsrc : t.source = consume p.answer s.source := coreStep_source h
      rw [SourceMovesByAPull, hsrc]
      exact (consume_cases p.answer s.source).imp_right fun hc => ⟨hreq, hc⟩
    · split at h
      · exact Or.inl (coreStep_source h)
      · cases h; exact Or.inl rfl

theorem clockEdge_source {p : Pins} {s t : State} (h : clockEdge p s = .next t) (hep : t.fbEpoch = s.fbEpoch) :
    SourceMovesByAPull s t := by
  rcases clockEdge_next h with ⟨-, rfl⟩ | ⟨-, u, hu, rfl⟩
  · exact absurd hep (resetEvent_fbEpoch_ne { s with readOut := none })
  · have hmove : SourceMovesByAPull s u := edgeEvent_source (s := requestRead p s) hu
    split
    · rwa [SourceMovesByAPull, answerOldest_source]
    · exact hmove

theorem hostMove_source {m : HostMove} {s t : State} (h : hostMove m s = .next t) (hep : t.fbEpoch = s.fbEpoch) :
    SourceMovesByAPull s t := by
  cases m with
  | wait => exact coreTurn_source h
  | start op => cases h; exact Or.inl (offerStart_source op s)
  | readFb a => cases h; exact Or.inl (answerRead_source a _ s)
  | reset => cases h; exact absurd hep (resetEvent_fbEpoch_ne s)
  | edge p => exact clockEdge_source h hep

/-- Settles O43: under a scripted host a step is the CORE's turn or the next move, and the source moves by a pull or stays. -/
theorem pullsOnlyInAPayload : Obligations.PullsOnlyInAPayload := by
  intro s t moves hhost hstep hep hne
  have hmove : SourceMovesByAPull s t := by
    unfold step nextEvent at hstep
    rw [hhost] at hstep
    cases moves with
    | nil => exact coreTurn_source hstep
    | cons m moves => exact hostMove_source (s := { s with host := .script moves }) hstep hep
  exact hmove.resolve_left hne

end Sys2Proof.Machine
end

section
/-! The frame buffer as the CORE and the host access it (20_memory.md R51, R52, R59). -/

namespace Sys2Proof.Machine

/-- `FBRead` after `FBWrite`, at every address (20 R52). -/
theorem fbRead_fbWrite (j : Nat) (v : Byte) (s : State) (a : Nat) :
    fbRead (fbWrite j v s) a = if a = j then v else fbRead s a := by
  split
  · rename_i h; rw [h, fbRead_fbWrite_same]
  · rename_i h; exact fbRead_fbWrite_other h v s

/-- Settles O6: read after write for bytes and for pixels; the two pixel primitives are their byte operations by
definition. -/
theorem accessPrimitives : Obligations.AccessPrimitives := fun s =>
  ⟨fun j v => ⟨rfl, fbRead_fbWrite j v s⟩, fun _ => rfl, fun i v => ⟨pixGet_pixSet i v s, rfl⟩⟩

/-- A read that `BUSY` left alone, below `NB`, gives the byte (20 R59, 46 R162). -/
theorem answerRead_specified {a : BitVec 10} (ha : a.toNat < Config.NB) (s : State) :
    answerRead a true s = { s with readOut := some (fbRead s a.toNat) } := by
  simp [answerRead, ha]

/-- Every other read gives a fresh free value (log 5). -/
theorem answerRead_unspecified {a : BitVec 10} {stable : Bool} (h : stable = false ∨ Config.NB ≤ a.toNat) (s : State) :
    answerRead a stable s
      = { s with readOut := some (Config.readDraw s.readDraws), readDraws := s.readDraws + 1 } := by
  unfold answerRead
  rcases h with rfl | h
  · simp
  · simp [Nat.not_lt.2 h]

/-- A scripted host read is one step (46 R164; log 6). -/
theorem step_readFb {s : State} {a : BitVec 10} {moves : List HostMove} (h : s.host = .script (.readFb a :: moves)) :
    step s = .next (answerRead a (!s.busy) { s with host := .script moves }) := by
  unfold step nextEvent
  rw [h]
  rfl

/-- Settles O51: the step is the read, which is specified exactly when the CORE is idle and the address below `NB`. -/
theorem hostReadAnswer : Obligations.HostReadAnswer := by
  intro s a moves hhost
  rw [step_readFb hhost]
  refine ⟨fun hidle ha => ?_, fun hunspecified => ?_⟩
  · rw [hidle, Bool.not_false, answerRead_specified ha]
    rfl
  · rw [answerRead_unspecified (hunspecified.imp_left fun hbusy => by rw [hbusy, Bool.not_true])]

end Sys2Proof.Machine
end

section
/-! The decoder and the encoder are inverse to each other in every context (30_encoding.md R72 to R79). -/

namespace Sys2Proof

/-- Every instruction is one byte of the stream, which decodes to it where it stands. -/
theorem encode_oneByte (i : Instr) : Laws.OneByte.Statement i := by
  cases i with
  | blank => exact Laws.OneByte.blank
  | raw => exact Laws.OneByte.raw
  | rle => exact Laws.OneByte.rle
  | xrle => exact Laws.OneByte.xrle
  | clr0 => exact Laws.OneByte.clr0
  | clr1 => exact Laws.OneByte.clr1
  | unk op => exact Laws.OneByte.unk op
  | run n v => exact Laws.OneByte.run n v
  | xrun n v => exact Laws.OneByte.xrun n v
  | rawb d => exact Laws.OneByte.rawb d

/-- Settles O2: an instruction is encoded as one byte, and the decoder takes that byte alone. -/
theorem decodeEncodeRoundTrip : Obligations.DecodeEncodeRoundTrip := by
  intro i rest hwf
  obtain ⟨b, hencode, hdecode⟩ := encode_oneByte i hwf
  rw [hencode, List.singleton_append, decode, hdecode]

/-- `i` is a well-formed instruction of the context `c`, and its encoding is the byte `b`. -/
def IsByteOf (c : Context) (b : Byte) (i : Instr) : Prop := i.wellFormed = true ∧ i.context = c ∧ encode i = [b]

/-- Every opcode byte is its class's only encoding (R72, 40_dispatcher.md R97). -/
theorem classify_isByteOf (op : Byte) : IsByteOf .boundary op (classify op) := by
  rcases classify_cases op with ⟨rfl, h⟩ | ⟨rfl, h⟩ | ⟨rfl, h⟩ | ⟨rfl, h⟩ | ⟨rfl, h⟩ | ⟨rfl, h⟩ | ⟨hop, h⟩ <;> rw [h]
  · exact ⟨rfl, rfl, rfl⟩
  · exact ⟨rfl, rfl, rfl⟩
  · exact ⟨rfl, rfl, rfl⟩
  · exact ⟨rfl, rfl, rfl⟩
  · exact ⟨rfl, rfl, rfl⟩
  · exact ⟨rfl, rfl, rfl⟩
  · exact ⟨decide_eq_true hop, rfl, rfl⟩

theorem decodeByte_isByteOf (c : Context) (b : Byte) : IsByteOf c b (decodeByte c b) := by
  cases c with
  | boundary => exact classify_isByteOf b
  | runOvr => exact ⟨rfl, rfl, congrArg ([·]) (encodeRun_fields b)⟩
  | runXor => exact ⟨rfl, rfl, congrArg ([·]) (encodeRun_fields b)⟩
  | rawPayload => exact ⟨rfl, rfl, rfl⟩

/-- Settles O3: the instruction is the one the byte decodes to, which the encoder writes as that byte. -/
theorem everyByteDecodesInEveryContext : Obligations.EveryByteDecodesInEveryContext := fun c b _ =>
  ⟨decodeByte c b, rfl, decodeByte_isByteOf c b⟩

/-- Settles O1: each word is the byte its instruction is encoded as, so the round trip decodes it. -/
theorem specWordsDecode : Obligations.SpecWordsDecode :=
  ⟨decodeEncodeRoundTrip .blank [] rfl, decodeEncodeRoundTrip .raw [] rfl, decodeEncodeRoundTrip .rle [] rfl,
    decodeEncodeRoundTrip .xrle [] rfl, decodeEncodeRoundTrip .clr0 [] rfl, decodeEncodeRoundTrip .clr1 [] rfl,
    decodeEncodeRoundTrip (.unk 0x06#8) [] rfl, decodeEncodeRoundTrip (.unk 0x82#8) [] rfl,
    decodeEncodeRoundTrip (.run 3#7 true) [] rfl, decodeEncodeRoundTrip (.xrun 64#7 false) [] rfl,
    decodeEncodeRoundTrip (.rawb 0xC1#8) [] rfl⟩

/-- The run length is bits 7:1 as an unsigned number, neither scaled nor biased (R75). -/
theorem runLength_toNat (rb : Byte) : (runLength rb).toNat = rb.toNat >>> 1 := by
  have hbyte := rb.isLt
  rw [runLength, BitVec.extractLsb'_toNat, Nat.shiftRight_eq_div_pow]
  exact Nat.mod_eq_of_lt (by omega)

/-- The pixel value is the low bit (R75). -/
theorem runValue_eq_true_iff (rb : Byte) : runValue rb = true ↔ rb.toNat &&& 1 = 1 := by
  rw [runValue, BitVec.getLsbD, Nat.testBit_zero, decide_eq_true_iff, Nat.and_one_is_mod]

/-- Settles O5: the two fields of a run byte by their lemmas; the operands of each context by the decoder's definition. -/
theorem operandAssembly : Obligations.OperandAssembly :=
  ⟨fun rb => ⟨runLength_toNat rb, runLength_le (runLength rb), runValue_eq_true_iff rb, rfl, rfl⟩, fun _ => rfl,
    fun _ => rfl⟩

end Sys2Proof
end

section
/-! The dispatcher (40_dispatcher.md R90 to R97): when a frame begins, what a dispatch runs, the opcodes without effect on
the frame buffer, and where every meaning stops. -/

namespace Sys2Proof.Machine

/-! ### The classification of opcodes -/

/-- Settles O4: the six claimed bytes by evaluation, every other byte by the classification of the unknown ones. -/
theorem opcodeClassification : Obligations.OpcodeClassification :=
  ⟨rfl, rfl, rfl, rfl, rfl, rfl, fun _ => classify_unk⟩

/-! ### The beginning of a frame -/

/-- A scripted `START` is one step (46_bytesource_and_host.md R164). -/
theorem step_start {s : State} {op : Byte} {moves : List HostMove} (h : s.host = .script (.start op :: moves)) :
    step s = .next (offerStart op { s with host := .script moves }) := by
  unfold step nextEvent
  rw [h]
  rfl

theorem cmdReady_iff {s : State} : s.cmdReady = true ↔ s.phase = .idle := decide_eq_true_iff

/-- A `START` offered to an idle CORE begins the frame (R90). -/
theorem step_start_idle {s : State} {op : Byte} {moves : List HostMove} (h : s.host = .script (.start op :: moves))
    (hidle : s.phase = .idle) : step s = .next (startFrame op { s with host := .script moves }) :=
  (step_start h).trans (congrArg _ (if_pos (cmdReady_iff.2 hidle)))

/-- A `START` offered to a busy CORE is used up without effect (R96; log 22). -/
theorem step_start_busy {s : State} {op : Byte} {moves : List HostMove} (h : s.host = .script (.start op :: moves))
    (hbusy : s.phase ≠ .idle) : step s = .next { s with host := .script moves } :=
  (step_start h).trans (congrArg _ (if_neg (mt cmdReady_iff.1 hbusy)))

/-- Settles O15: idle, the step begins the frame, which writes no byte of the frame buffer; busy, it uses up the offer. -/
theorem startOnlyWhenIdle : Obligations.StartOnlyWhenIdle := fun _ _ _ hhost =>
  ⟨fun hidle => ⟨cmdReady_iff.2 hidle, _, step_start_idle hhost hidle, rfl, fbRead_congr rfl rfl, rfl⟩,
    fun hbusy => ⟨Bool.eq_false_iff.2 (mt cmdReady_iff.1 hbusy), step_start_busy hhost hbusy⟩⟩

/-! ### The dispatch -/

/-- At a dispatch the CORE pulls nothing and runs the instruction of the byte in `OP` (R91). -/
theorem coreTurn_dispatch {c : State} (hp : c.phase = .dispatch) : coreTurn c = exec (classify c.op) c := by
  simp [coreTurn, State.srcReq, coreStep, decodeByte, hp]

/-- Settles O17: the step is the CORE's turn, and `OP` decodes to its class. -/
theorem stepRunsDispatchedOpcode : Obligations.StepRunsDispatchedOpcode := by
  intro s c i hturn hp hdecode
  cases hdecode
  exact (step_coreTurn hturn).trans (coreTurn_dispatch hp)

/-- Settles O20: at a dispatch `BLANK` answers `FrameEnd()`, which touches neither the frame buffer nor the reset counter. -/
theorem blankEndsTheFrame : Obligations.BlankEndsTheFrame :=
  ⟨rfl, fun s hp =>
    ⟨frameEnd s, atDispatch_next.2 ⟨hp, rfl⟩, rfl, fbRead_congr rfl rfl, pixGet_congr rfl rfl⟩⟩

/-- Settles O21: every byte from 6 on is unknown, and its meaning is that of `BLANK` after setting the flag. -/
theorem unknownOpcodeIsNoOp : Obligations.UnknownOpcodeIsNoOp :=
  ⟨fun _ => classify_unk, fun _ s hp =>
    ⟨frameEnd { s with unk := true }, atDispatch_next.2 ⟨hp, rfl⟩, rfl, fbRead_congr rfl rfl⟩⟩

/-! ### Where a meaning stops -/

theorem atDispatch_refused {s : State} (h : s.phase ≠ .dispatch) (t : State) :
    atDispatch s t = .refused .outOfContext := if_neg h

theorem inPass_refused {mode : Mode} {s : State} (h : ¬ (s.phase = .run ∧ s.mode = mode)) (t : State) :
    inPass mode s t = .refused .outOfContext := if_neg h

theorem execRawb_refused {s : State} (h : s.phase ≠ .raw) (d : Byte) : execRawb d s = .refused .outOfContext := if_neg h

theorem execRawb_fault {s : State} (hp : s.phase = .raw) (h : Config.NB ≤ s.ridx.toNat) (d : Byte) :
    execRawb d s = .fault .fbAddress := (if_pos hp).trans (if_neg (Nat.not_lt.2 h))

/-- Every opcode's meaning is an effect under the guard of R91. -/
theorem exec_opcode {i : Instr} (h : i.context = .boundary) (s : State) : ∃ t, exec i s = atDispatch s t := by
  cases i with
  | blank => exact ⟨_, rfl⟩
  | raw => exact ⟨_, rfl⟩
  | rle => exact ⟨_, rfl⟩
  | xrle => exact ⟨_, rfl⟩
  | clr0 => exact ⟨_, rfl⟩
  | clr1 => exact ⟨_, rfl⟩
  | unk op => exact ⟨_, rfl⟩
  | run n v => cases h
  | xrun n v => cases h
  | rawb d => cases h

/-! In each payload context stands one instruction (30_encoding.md R76). -/

theorem eq_run_of_context : ∀ {i : Instr}, i.context = .runOvr → ∃ n v, i = .run n v
  | .run n v, _ => ⟨n, v, rfl⟩

theorem eq_xrun_of_context : ∀ {i : Instr}, i.context = .runXor → ∃ n v, i = .xrun n v
  | .xrun n v, _ => ⟨n, v, rfl⟩

theorem eq_rawb_of_context : ∀ {i : Instr}, i.context = .rawPayload → ∃ d, i = .rawb d
  | .rawb d, _ => ⟨d, rfl⟩

/-- Settles O33: context by context, the guard of the instructions that stand there fails. -/
theorem meaningsStopOutsideTheirContext : Obligations.MeaningsStopOutsideTheirContext := by
  intro i s
  refine ⟨fun hc hp => ?_, fun hc hp => ?_, fun hc hp => ?_, fun hc hp => ?_, fun hc hp hle => ?_⟩
  · obtain ⟨t, ht⟩ := exec_opcode hc s
    rw [ht, atDispatch_refused hp]
  · obtain ⟨n, v, rfl⟩ := eq_run_of_context hc
    exact inPass_refused hp _
  · obtain ⟨n, v, rfl⟩ := eq_xrun_of_context hc
    exact inPass_refused hp _
  · obtain ⟨d, rfl⟩ := eq_rawb_of_context hc
    exact execRawb_refused hp d
  · obtain ⟨d, rfl⟩ := eq_rawb_of_context hc
    exact execRawb_fault hp hle d

end Sys2Proof.Machine
end

section
/-! The raw copy decoder (41_rawcopy.md R105, R106, R108): the dispatch of `RAW`, what a payload step runs, the copy of one
byte, and the copy of a whole frame as the copy of a list of bytes. -/

namespace Sys2Proof.Machine

/-! ### The dispatch of RAW -/

/-- Settles O22: the effect writes neither the frame buffer nor the reset counter, and the phase it leaves is busy. -/
theorem rawDispatchBeginsCopy : Obligations.RawDispatchBeginsCopy :=
  ⟨rfl, fun s hp =>
    ⟨{ s with ridx := 0#10, phase := .raw }, atDispatch_next.2 ⟨hp, rfl⟩, rfl, rfl, fbRead_congr rfl rfl⟩⟩

theorem dispatchEffect_raw {s : State} (hop : s.op = 0x01#8) :
    dispatchEffect s = { s with ridx := 0#10, phase := .raw } := by
  simp [dispatchEffect, hop, classify]

/-! ### A payload step -/

/-- In a payload the CORE's turn uses the answer to its pull, in the state in which the source has given it. -/
theorem coreTurn_payload {c : State} {a : Option Answer} {src : Source} (hreq : c.srcReq = true)
    (hpull : pull c.source = (a, src)) : coreTurn c = payloadStep a { c with source := src } := by
  rw [coreTurn, if_pos hreq, hpull]
  rcases srcReq_iff.1 hreq with hp | hp
  · simp only [coreStep, hp]
  · simp only [coreStep, hp]

/-- Settles O18: the step is the CORE's turn, and the context of the frame does not depend on the source. -/
theorem stepRunsPayloadByte : Obligations.StepRunsPayloadByte := by
  intro s c b src i hturn hreq hpull hdecode
  cases hdecode
  exact (step_coreTurn hturn).trans (coreTurn_payload hreq hpull)

/-! ### One raw byte -/

theorem copyByte_changes (d : Byte) (s : State) :
    copyByte d s = { s with
      fb := (copyByte d s).fb
      ridx := (copyByte d s).ridx
      phase := (copyByte d s).phase
      done := (copyByte d s).done } := by
  rw [copyByte_frame]

theorem copyByte_ridx {s : State} (h : s.ridx.toNat < Config.NB) (d : Byte) :
    (copyByte d s).ridx.toNat = s.ridx.toNat + 1 := by
  rw [copyByte_frame]; exact ridx_toNat h

theorem copyByte_ends {s : State} (h : s.ridx.toNat + 1 = Config.NB) (d : Byte) :
    (copyByte d s).phase = .idle ∧ (copyByte d s).done = true := by
  simp [copyByte_frame, h]

theorem copyByte_continues {s : State} (h : s.ridx.toNat + 1 < Config.NB) (d : Byte) :
    (copyByte d s).phase = s.phase ∧ (copyByte d s).done = s.done := by
  simp [copyByte_frame, h.ne]

theorem copyByte_setSource (d : Byte) (s : State) (src : Source) :
    copyByte d { s with source := src } = { copyByte d s with source := src } := by
  rw [copyByte_frame, copyByte_frame]

/-- The eight pixels of a copied byte are its bits from 7 down (R106). -/
theorem pixGet_copyByte (d : Byte) (s : State) {p : Nat} (hp : p < 8) :
    pixGet (copyByte d s) (8 * s.ridx.toNat + p) = d.getLsbD (7 - p) := by
  rw [pixGet_byte _ _ hp, fbRead_copyByte, if_pos rfl]

/-- Settles O27: below `NB` the meaning is the copy of the byte; a failed pull is the fault, which touches neither the frame
buffer nor the index. -/
theorem rawByteIsCopied : Obligations.RawByteIsCopied := by
  refine ⟨fun _ => rfl, fun d s hp hlt => ?_, fun s c src hturn hp hpull => ?_⟩
  · refine ⟨copyByte d s, execRawb_next.2 ⟨hp, hlt, rfl⟩, copyByte_changes d s, copyByte_ridx hlt d, fun hlast => ?_,
      fun hmore => ?_, ?_, fun j hj => ?_, fun p => pixGet_copyByte d s⟩
    · obtain ⟨hidle, hdone⟩ := copyByte_ends hlast d
      exact ⟨hidle, hdone, by simp [State.srcReq, hidle]⟩
    · obtain ⟨hphase, hdone⟩ := copyByte_continues hmore d
      exact ⟨hphase.trans hp, hdone⟩
    · rw [fbRead_copyByte, if_pos rfl]
    · rw [fbRead_copyByte, if_neg hj]
  · exact step_failedPull hturn (srcReq_iff.2 (Or.inl hp)) hpull

/-! ### Several raw bytes -/

/-- The copy of several payload bytes, one after the other; `runFor_copyBytes` says that these are the steps of R106. -/
def copyBytes : List Byte → State → State
  | [], s => s
  | d :: ds, s => copyBytes ds (copyByte d s)

theorem copyBytes_ridx {ds : List Byte} {s : State} (h : s.ridx.toNat + ds.length ≤ Config.NB) :
    (copyBytes ds s).ridx.toNat = s.ridx.toNat + ds.length := by
  induction ds generalizing s with
  | nil => rfl
  | cons d ds ih =>
    rw [List.length_cons] at h ⊢
    have hidx := copyByte_ridx (s := s) (by omega) d
    rw [copyBytes, ih (by omega)]
    omega

theorem copyBytes_changes (ds : List Byte) (s : State) :
    copyBytes ds s = { s with
      fb := (copyBytes ds s).fb
      ridx := (copyBytes ds s).ridx
      phase := (copyBytes ds s).phase
      done := (copyBytes ds s).done } := by
  induction ds generalizing s with
  | nil => rfl
  | cons d ds ih => rw [copyBytes, ih, copyByte_changes]

/-- Bytes that fill the frame up to `NB` end it (R106). -/
theorem copyBytes_ends {ds : List Byte} {s : State} (hne : ds ≠ []) (h : s.ridx.toNat + ds.length = Config.NB) :
    (copyBytes ds s).phase = .idle ∧ (copyBytes ds s).done = true := by
  induction ds generalizing s with
  | nil => exact absurd rfl hne
  | cons d ds ih =>
    rw [List.length_cons] at h
    by_cases hds : ds = []
    · subst hds
      exact copyByte_ends h d
    · have hidx := copyByte_ridx (s := s) (by omega) d
      exact ih hds (by omega)

/-- The bytes below the index are left as they are. -/
theorem fbRead_copyBytes_below {ds : List Byte} {s : State} (h : s.ridx.toNat + ds.length ≤ Config.NB) {j : Nat}
    (hj : j < s.ridx.toNat) : fbRead (copyBytes ds s) j = fbRead s j := by
  induction ds generalizing s with
  | nil => rfl
  | cons d ds ih =>
    rw [List.length_cons] at h
    have hidx := copyByte_ridx (s := s) (by omega) d
    rw [copyBytes, ih (by omega) (by omega), fbRead_copyByte, if_neg (by omega)]

/-- The byte number `i` of the list goes to the address `i` past the index: a later byte does not overwrite it. -/
theorem fbRead_copyBytes {ds : List Byte} {s : State} (h : s.ridx.toNat + ds.length ≤ Config.NB) {i : Nat}
    (hi : i < ds.length) : ds[i]? = some (fbRead (copyBytes ds s) (s.ridx.toNat + i)) := by
  induction ds generalizing s i with
  | nil => exact absurd hi (Nat.not_lt_zero i)
  | cons d ds ih =>
    rw [List.length_cons] at h hi
    have hidx := copyByte_ridx (s := s) (by omega) d
    cases i with
    | zero =>
      have hkept : fbRead (copyBytes ds (copyByte d s)) s.ridx.toNat = fbRead (copyByte d s) s.ridx.toNat :=
        fbRead_copyBytes_below (by omega) (by omega)
      rw [copyBytes, Nat.add_zero, hkept, fbRead_copyByte, if_pos rfl]
      rfl
    | succ i =>
      have hrest := ih (s := copyByte d s) (i := i) (by omega) (by omega)
      rwa [hidx, Nat.add_right_comm] at hrest

/-- The scripted source answers with the next byte, and the step copies it. -/
theorem step_copyByte_scripted {s : State} {d : Byte} {answers : List Answer} (hhost : s.host = .script [])
    (hp : s.phase = .raw) (hlt : s.ridx.toNat < Config.NB) (hsrc : s.source = .script (.byte d :: answers)) :
    step s = .next { copyByte d s with source := .script answers } :=
  copyByte_setSource d s _ ▸ step_copyByte (coreTurnState_idleHost hhost) hp hlt (by rw [hsrc, pull])

/-- Bytes that fit in the frame are copied in as many steps, and the source has given exactly them. -/
theorem runFor_copyBytes {ds : List Byte} {rest : List Answer} {s : State} (hhost : s.host = .script [])
    (hp : s.phase = .raw) (hlen : s.ridx.toNat + ds.length ≤ Config.NB)
    (hsrc : s.source = .script (ds.map .byte ++ rest)) :
    runFor ds.length s = .next (copyBytes ds { s with source := .script rest }) := by
  induction ds generalizing s with
  | nil => rw [← show s.source = .script rest from hsrc]; rfl
  | cons d ds ih =>
    rw [List.length_cons] at hlen
    have hstep := step_copyByte_scripted hhost hp (by omega) hsrc
    rw [List.length_cons, runFor_step hstep, copyBytes, copyByte_setSource d s (.script rest)]
    by_cases hds : ds = []
    · subst hds; rfl
    · have hpos : 0 < ds.length := List.length_pos_iff.2 hds
      have hidx := copyByte_ridx (s := s) (by omega) d
      obtain ⟨hphase, -⟩ := copyByte_continues (s := s) (by omega) d
      have hhost' : (copyByte d s).host = .script [] := by rw [copyByte_changes]; exact hhost
      have hlen' : (copyByte d s).ridx.toNat + ds.length ≤ Config.NB := by omega
      exact ih (s := { copyByte d s with source := .script (ds.map .byte ++ rest) }) hhost' (hphase.trans hp) hlen' rfl

/-- `NB` bytes copied from address 0 on end the frame and are its contents, whatever it held before (R108). -/
theorem copyBytes_wholeFrame {ds : List Byte} {s : State} (hridx : s.ridx.toNat = 0) (hlen : ds.length = Config.NB) :
    copyBytes ds s
        = { s with fb := (copyBytes ds s).fb, ridx := (copyBytes ds s).ridx, phase := .idle, done := true } ∧
      (copyBytes ds s).ridx.toNat = Config.NB ∧ ∀ j, j < Config.NB → ds[j]? = some (fbRead (copyBytes ds s) j) := by
  have hfull : s.ridx.toNat + ds.length = Config.NB := by omega
  have hne : ds ≠ [] := List.ne_nil_of_length_pos (by rw [hlen, NB_value]; omega)
  have hframe := copyBytes_changes ds s
  obtain ⟨hidle, hdone⟩ := copyBytes_ends hne hfull
  rw [hidle, hdone] at hframe
  refine ⟨hframe, (copyBytes_ridx hfull.le).trans hfull, fun j hj => ?_⟩
  have hbyte := fbRead_copyBytes hfull.le (hlen ▸ hj)
  rwa [hridx, Nat.zero_add] at hbyte

/-- Settles O46: the dispatch puts the index to 0, from where the `NB` bytes are copied. -/
theorem rawWholeFrame : Obligations.RawWholeFrame := by
  intro s ds rest hp hop hhost hlen hsrc
  have hcopy := runFor_copyBytes (s := { s with ridx := 0#10, phase := .raw }) hhost rfl
    ((Nat.zero_add _).trans_le hlen.le) hsrc
  rw [runFor_one_add (step_dispatch (coreTurnState_idleHost hhost) hp), dispatchEffect_raw hop, ← hlen]
  exact ⟨_, hcopy, hlen ▸ copyBytes_wholeFrame rfl hlen⟩

end Sys2Proof.Machine
end

section
/-! The bit-packer (42_bitpacker.md R110 to R121): the mask function, the combine function, and the span write in its
two forms, compared pixel by pixel. -/

namespace Sys2Proof.Machine

/-! ### The span write, pixel by pixel (R113) -/

/-- `ApplySpan` writes nothing but the frame buffer. -/
theorem applySpan_frame (v : Bool) (mode : Mode) (n k : Nat) (s : State) :
    applySpan k v mode n s = { s with fb := (applySpan k v mode n s).fb } := by
  induction n generalizing k s with
  | zero => rfl
  | succ n ih => rw [applySpan, ih, pixSet, fbWrite]

/-- Settles O9: each pixel by `pixGet_applySpan`, the rest of the state by `applySpan_frame`. -/
theorem applySpanMeaning : Obligations.ApplySpanMeaning := by
  intro k n v s
  refine ⟨fun i hlo hhi => ?_, fun mode => ⟨fun i hout => ?_, rfl, applySpan_frame v mode n k s⟩⟩
  · have hpixel (mode : Mode) : pixGet (applySpan k v mode n s) i = newPixel (pixGet s i) v mode := by
      rw [pixGet_applySpan, if_pos ⟨hlo, hhi⟩]
    exact ⟨hpixel .ovr, hpixel .xor⟩
  · rw [pixGet_applySpan, if_neg hout]

/-! ### The span write, byte by byte (R117) -/

/-- The two forms of the span write leave the same pixels. -/
theorem pixGet_spanWrite_eq_applySpan (k n : Nat) (v : Bool) (mode : Mode) (s : State) (i : Nat) :
    pixGet (spanWrite k n v mode s) i = pixGet (applySpan k v mode n s) i := by
  rw [pixGet_spanWrite, pixGet_applySpan]

/-- Settles O10: equal pixels make equal bytes; head, body and tail lose no pixel of the run and leave none over. -/
theorem spanBytewiseEqualsPixelwise : Obligations.SpanBytewiseEqualsPixelwise := by
  intro k n v mode s
  obtain ⟨hadvance, hrem⟩ := spanWork_advance k n v mode s
  have hend : (spanWork k n v mode s).k = k + n := by
    have htotal := hadvance.total
    rwa [hrem, Nat.add_zero] at htotal
  have hbytes (j : Nat) : fbRead (spanWork k n v mode s).s j = fbRead (applySpan k v mode n s) j :=
    fbRead_eq_of_pixels fun i _ _ => pixGet_spanWrite_eq_applySpan k n v mode s i
  exact ⟨hbytes, hend, hrem, hadvance.frame⟩

/-! ### The mask function (R111) -/

theorem mask_toNat_table : ∀ a b : Fin 9, a ≤ b → (mask a.val b.val).toNat = 2 ^ (8 - a.val) - 2 ^ (8 - b.val) := by
  decide

/-- The mask as a natural number, the second form of R111. -/
theorem mask_toNat {a b : Nat} (hab : a ≤ b) (hb : b ≤ 8) : (mask a b).toNat = 2 ^ (8 - a) - 2 ^ (8 - b) :=
  mask_toNat_table ⟨a, by omega⟩ ⟨b, by omega⟩ hab

/-- The mask by shifts of natural numbers, the third form of R111. -/
theorem mask_toNat_shifts {a b : Nat} (hab : a ≤ b) (hb : b ≤ 8) :
    (mask a b).toNat = ((1 <<< (8 - a)) - 1) - ((1 <<< (8 - b)) - 1) := by
  rw [mask_toNat hab hb, Nat.one_shiftLeft, Nat.one_shiftLeft, Nat.sub_sub_sub_cancel_right Nat.one_le_two_pow]

/-- The empty mask. -/
theorem mask_self (a : Nat) : mask a a = 0x00#8 := BitVec.and_not_self _

/-- The head mask: all pixel positions from `a` on. -/
theorem mask_to_end (a : Nat) : mask a 8 = 0xFF#8 >>> a := BitVec.and_allOnes

/-- The mask of the leading `a` pixel positions, as a complement. -/
theorem mask_leading (a : Nat) : mask 0 a = 0xFF#8 ^^^ (0xFF#8 >>> a) := by
  rw [mask, BitVec.ushiftRight_zero]
  exact BitVec.allOnes_and.trans BitVec.allOnes_xor.symm

/-- The mask of the leading `a` pixel positions, as a shift: pixel position `p` is integer bit `7 - p`. -/
theorem mask_leading_shift {a : Nat} (ha : a ≤ 8) : mask 0 a = 0xFF#8 <<< (8 - a) :=
  byte_ext_pixels fun p hp => by
    rw [mask_pixel (Nat.zero_le a) ha hp, BitVec.getLsbD_shiftLeft, show 0xFF#8 = BitVec.allOnes 8 from rfl,
      BitVec.getLsbD_allOnes, Bool.eq_iff_iff]
    simp only [Bool.and_eq_true, Bool.not_eq_true', decide_eq_true_iff, decide_eq_false_iff_not]
    omega

/-- The mask of the trailing `t` pixel positions. -/
theorem mask_trailing_toNat {t : Nat} (ht : t ≤ 8) : (mask (8 - t) 8).toNat = (1 <<< t) - 1 := by
  rw [mask_toNat (Nat.sub_le 8 t) (le_refl 8), Nat.sub_sub_self ht, Nat.one_shiftLeft,
    Nat.sub_self, Nat.pow_zero]

/-- Settles O7: the first form is the definition; the others and the special cases by their lemmas. -/
theorem maskForms : Obligations.MaskForms :=
  ⟨fun _ _ hab hb => ⟨rfl, mask_toNat hab hb, mask_toNat_shifts hab hb,
      fun _ hp => by rw [mask_pixel hab hb hp, decide_eq_true_iff]⟩,
    fun a ha => ⟨mask_self a, mask_to_end a, mask_leading a, mask_leading_shift ha, mask_trailing_toNat ha⟩,
    mask_full⟩

/-! ### The combine function (R121) -/

/-- A bit inside the mask is combined as a pixel is. -/
theorem combine_bit_inside (old : Byte) {m : Byte} (v : Bool) (mode : Mode) {i : Nat} (h : m.getLsbD i = true) :
    (combine old m v mode).getLsbD i = newPixel (old.getLsbD i) v mode := by
  rw [combine_bit old m v mode (BitVec.lt_of_getLsbD h), if_pos h]

/-- The bits outside the mask are the old ones. -/
theorem combine_outside (old m : Byte) (v : Bool) (mode : Mode) : combine old m v mode &&& ~~~m = old &&& ~~~m := by
  apply BitVec.eq_of_getLsbD_eq
  intro i hi
  rw [BitVec.getLsbD_and, BitVec.getLsbD_and, BitVec.getLsbD_not, combine_bit old m v mode hi]
  cases hm : m.getLsbD i <;> simp

/-- With the empty mask nothing is written. -/
theorem combine_empty (old : Byte) (v : Bool) (mode : Mode) : combine old 0x00#8 v mode = old := by
  have h := combine_outside old 0x00#8 v mode
  rwa [show ~~~0x00#8 = BitVec.allOnes 8 from rfl, BitVec.and_allOnes, BitVec.and_allOnes] at h

/-- In `XOR` mode the mask pattern is the mask or nothing, by the value of the run. -/
theorem combine_xor (old m : Byte) (v : Bool) : combine old m v .xor = old ^^^ if v then m else 0x00#8 := by
  cases v with
  | true => rfl
  | false => exact BitVec.xor_zero.symm

/-- A whole byte: an overwrite does not need the old one, a delta of value 1 inverts it. -/
theorem combine_full (old : Byte) :
    combine old 0xFF#8 true .ovr = 0xFF#8 ∧ combine old 0xFF#8 false .ovr = 0x00#8 ∧
      combine old 0xFF#8 true .xor = ~~~old :=
  ⟨BitVec.or_allOnes, BitVec.and_zero, BitVec.xor_allOnes⟩

/-- Settles O8: the four forms are the definition; inside and outside the mask by `combine_bit`. -/
theorem combineRule : Obligations.CombineRule :=
  ⟨fun old m => ⟨rfl, rfl, rfl, rfl, combine_xor old m⟩, combine_outside,
    fun old _ v _ hm => ⟨combine_bit_inside old v .ovr hm, combine_bit_inside old v .xor hm⟩,
    combine_empty, combine_full⟩

end Sys2Proof.Machine
end

section
/-! The overwrite run decoder (43_run_overwrite.md R125 to R132): the overwrite property of the span write, the dispatch of
`RLE`, one run byte, a zero-length run, and a pass as the application of a list of runs. What does not turn on the value an
overwrite leaves is stated for either mode. -/

namespace Sys2Proof.Machine

/-! ### The overwrite property (R128) -/

/-- An overwrite leaves the value of the run inside it, whatever was there, and the old pixel outside. -/
theorem pixGet_spanWrite_ovr (k n : Nat) (v : Bool) (s : State) (i : Nat) :
    pixGet (spanWrite k n v .ovr s) i = if k ≤ i ∧ i < k + n then v else pixGet s i :=
  pixGet_spanWrite k n v .ovr s i

theorem pixGet_spanWrite_ovr_inside {k n i : Nat} (hi : k ≤ i ∧ i < k + n) (v : Bool) (s : State) :
    pixGet (spanWrite k n v .ovr s) i = v :=
  (pixGet_spanWrite_ovr k n v s i).trans (if_pos hi)

theorem pixGet_spanWrite_outside {k n i : Nat} (hi : ¬ (k ≤ i ∧ i < k + n)) (v : Bool) (mode : Mode) (s : State) :
    pixGet (spanWrite k n v mode s) i = pixGet s i :=
  (pixGet_spanWrite k n v mode s i).trans (if_neg hi)

/-- R128 (a): the second of two equal overwrites changes no byte. -/
theorem spanWrite_ovr_idempotent (k n : Nat) (v : Bool) (s : State) (j : Nat) :
    fbRead (spanWrite k n v .ovr (spanWrite k n v .ovr s)) j = fbRead (spanWrite k n v .ovr s) j := by
  refine fbRead_eq_of_pixels fun i _ _ => ?_
  by_cases hi : k ≤ i ∧ i < k + n
  · rw [pixGet_spanWrite_ovr_inside hi, pixGet_spanWrite_ovr_inside hi]
  · rw [pixGet_spanWrite_outside hi]

/-- R128 (c): two overwrites over disjoint ranges may be exchanged, since no pixel lies in both. -/
theorem spanWrite_ovr_comm {k n k' n' : Nat} (hdisjoint : k + n ≤ k' ∨ k' + n' ≤ k) (v v' : Bool) (s : State)
    (j : Nat) :
    fbRead (spanWrite k' n' v' .ovr (spanWrite k n v .ovr s)) j
      = fbRead (spanWrite k n v .ovr (spanWrite k' n' v' .ovr s)) j := by
  refine fbRead_eq_of_pixels fun i _ _ => ?_
  by_cases hi : k ≤ i ∧ i < k + n
  · have hi' : ¬ (k' ≤ i ∧ i < k' + n') := by omega
    rw [pixGet_spanWrite_outside hi', pixGet_spanWrite_ovr_inside hi, pixGet_spanWrite_ovr_inside hi]
  · rw [pixGet_spanWrite_ovr k' n', pixGet_spanWrite_outside hi, pixGet_spanWrite_outside hi, pixGet_spanWrite_ovr]

/-- Settles O11: inside the run the pixel is `v`, so it depends on no old contents; the rest by the lemmas above. -/
theorem overwriteProperty : Obligations.OverwriteProperty := by
  intro k n v s
  refine ⟨fun i hlo hhi => pixGet_spanWrite_ovr_inside ⟨hlo, hhi⟩ v s,
    fun i hout => pixGet_spanWrite_outside hout v .ovr s, spanWrite_ovr_idempotent k n v s, fun s' i hlo hhi => ?_,
    fun k' n' v' hdisjoint => spanWrite_ovr_comm hdisjoint v v' s⟩
  rw [pixGet_spanWrite_ovr_inside ⟨hlo, hhi⟩, pixGet_spanWrite_ovr_inside ⟨hlo, hhi⟩]

/-! ### The dispatch of RLE (R125) -/

/-- A pass begins at pixel 0, below `P`. -/
theorem beginPass_cursor_lt (mode : Mode) (s : State) : (beginPass mode s).cursor.toNat < Config.P := by
  rw [beginPass_cursor, P_value]; decide

theorem dispatchEffect_rle {s : State} (hop : s.op = 0x02#8) : dispatchEffect s = beginPass .ovr s := by
  simp [dispatchEffect, hop, classify]

/-- Settles O23: the meaning is the beginning of a pass, which writes neither the frame buffer nor the reset counter. -/
theorem rleDispatchBeginsPass : Obligations.RleDispatchBeginsPass :=
  ⟨rfl, fun s hp =>
    ⟨beginPass .ovr s, atDispatch_next.2 ⟨hp, rfl⟩, rfl, rfl, beginPass_cursor_lt .ovr s, fbRead_congr rfl rfl⟩⟩

/-! ### One run byte (R126, R127) -/

/-- A run byte is `2n + v` (30_encoding.md R73). -/
theorem encodeRun_toNat (n : BitVec 7) (v : Bool) : (encodeRun n v).toNat = 2 * n.toNat + v.toNat := by
  have hv : v.toNat < 2 ^ 1 := v.toNat_lt
  rw [encodeRun, BitVec.toNat_append, BitVec.toNat_ofBool, ← Nat.shiftLeft_add_eq_or_of_lt hv, Nat.shiftLeft_eq]
  omega

theorem decodeByte_runOvr_encodeRun (n : BitVec 7) (v : Bool) : decodeByte .runOvr (encodeRun n v) = .run n v := by
  rw [decodeByte, runLength_encodeRun, runValue_encodeRun]

section
variable {n : BitVec 7} {v : Bool} {s : State}

theorem runByte_changes (h : s.cursor.toNat + n.toNat ≤ Config.P) :
    runByte n v s = { s with
      fb := (runByte n v s).fb
      cursor := (runByte n v s).cursor
      phase := (runByte n v s).phase
      done := (runByte n v s).done } := by
  rw [runByte_frame h]

theorem runByte_ends (h : s.cursor.toNat + n.toNat = Config.P) :
    (runByte n v s).phase = .idle ∧ (runByte n v s).done = true := by
  simp [runByte_frame h.le, h]

theorem runByte_continues (h : s.cursor.toNat + n.toNat < Config.P) :
    (runByte n v s).phase = s.phase ∧ (runByte n v s).done = s.done := by
  simp [runByte_frame h.le, h.ne]

theorem pixGet_runByte_inside (h : s.cursor.toNat + n.toNat ≤ Config.P) {i : Nat}
    (hi : s.cursor.toNat ≤ i ∧ i < s.cursor.toNat + n.toNat) :
    pixGet (runByte n v s) i = newPixel (pixGet s i) v s.mode :=
  (pixGet_runByte h i).trans (if_pos hi)

theorem pixGet_runByte_outside (h : s.cursor.toNat + n.toNat ≤ Config.P) {i : Nat}
    (hi : ¬ (s.cursor.toNat ≤ i ∧ i < s.cursor.toNat + n.toNat)) :
    pixGet (runByte n v s) i = pixGet s i :=
  (pixGet_runByte h i).trans (if_neg hi)

/-- Each byte is its old value combined under the mask of the positions the run covers in it. -/
theorem fbRead_runByte (h : s.cursor.toNat + n.toNat ≤ Config.P) (j : Nat) :
    fbRead (runByte n v s) j = combine (fbRead s j)
      (mask (min 8 (s.cursor.toNat - 8 * j)) (min 8 (s.cursor.toNat + n.toNat - 8 * j))) v s.mode := by
  refine byte_ext_pixels fun p hp => ?_
  have hcovered : (min 8 (s.cursor.toNat - 8 * j) ≤ p ∧ p < min 8 (s.cursor.toNat + n.toNat - 8 * j)) ↔
      (s.cursor.toNat ≤ 8 * j + p ∧ 8 * j + p < s.cursor.toNat + n.toNat) := by omega
  rw [combine_mask_pixel _ _ _ (by omega) (by omega) hp, ← pixGet_byte _ j hp, ← pixGet_byte _ j hp, pixGet_runByte h]
  simp only [hcovered]

/-- A byte without a pixel of the run is left as it is. -/
theorem fbRead_runByte_outside (h : s.cursor.toNat + n.toNat ≤ Config.P) {j : Nat}
    (hj : 8 * j + 8 ≤ s.cursor.toNat ∨ s.cursor.toNat + n.toNat ≤ 8 * j) : fbRead (runByte n v s) j = fbRead s j :=
  fbRead_eq_of_pixels fun _ _ _ => pixGet_runByte_outside h (by omega)

end

/-- Settles O28: in a pass the meaning is the application of the run, which is the fault past `P`. -/
theorem overwriteRunSetsPixels : Obligations.OverwriteRunSetsPixels := by
  refine ⟨fun n v => ⟨encodeRun_toNat n v, decodeByte_runOvr_encodeRun n v⟩, fun n v s hp hm => ?_⟩
  have hexec : exec (.run n v) s = .next (runByte n v s) := inPass_next.2 ⟨⟨hp, hm⟩, rfl⟩
  refine ⟨fun hle => ?_, fun hover => by rw [hexec, runByte_overrun hover, raiseFault]⟩
  refine ⟨runByte n v s, hexec, runByte_changes hle, runByte_cursor hle, runByte_ends, fun hlt => ?_, fun i hlo hhi => ?_,
    fun i hout => pixGet_runByte_outside hle hout, fun j => hm ▸ fbRead_runByte hle j,
    fun j hj => fbRead_runByte_outside hle hj⟩
  · obtain ⟨hphase, hdone⟩ := runByte_continues (v := v) hlt
    exact ⟨hphase.trans hp, hdone⟩
  · rw [pixGet_runByte_inside hle ⟨hlo, hhi⟩, hm, newPixel]

/-! ### A zero-length run (R130) -/

theorem runLength_eq_zero_iff : ∀ rb : Byte, runLength rb = 0#7 ↔ rb = 0x00#8 ∨ rb = 0x01#8 := by decide

/-- Below `P` a zero-length run moves no cursor and ends no pass. -/
theorem runByte_zero {s : State} (h : s.cursor.toNat < Config.P) (v : Bool) :
    runByte 0#7 v s = { s with fb := (runByte 0#7 v s).fb } := by
  have hinside : s.cursor.toNat + (0#7).toNat < Config.P := h
  rw [runByte_inside hinside, spanWrite_frame]
  simp

/-- A zero-length run covers no pixel. -/
theorem fbRead_runByte_zero {s : State} (h : s.cursor.toNat ≤ Config.P) (v : Bool) (j : Nat) :
    fbRead (runByte 0#7 v s) j = fbRead s j := by
  have hinside : s.cursor.toNat + (0#7).toNat ≤ Config.P := h
  have hempty (i : Nat) : ¬ (s.cursor.toNat ≤ i ∧ i < s.cursor.toNat + (0#7).toNat) := by
    rw [BitVec.toNat_zero]; omega
  exact fbRead_eq_of_pixels fun i _ _ => pixGet_runByte_outside hinside (hempty i)

/-- Settles O30: the step applies the run of length 0 once the source has given its byte. -/
theorem zeroLengthRunChangesNothing : Obligations.ZeroLengthRunChangesNothing := by
  refine ⟨runLength_eq_zero_iff, fun s c rb src hturn hp hlt hpull hzero => ?_⟩
  have hstep := step_runByte hturn hp hpull
  rw [hzero] at hstep
  exact ⟨_, hstep, runByte_zero (s := { c with source := src }) hlt _,
    fun j => (fbRead_runByte_zero (s := { c with source := src }) hlt.le _ j).trans (fbRead_congr rfl rfl j)⟩

/-! ### The runs that fit in a pass (30_encoding.md R84) -/

/-- Runs that a pass standing at pixel `k` takes one after the other: none goes past `P`, and none but the last reaches
it. -/
def FitsPass (k : Nat) (runs : List (BitVec 7 × Bool)) : Prop :=
  k + runsLength runs ≤ Config.P ∧ ∀ m, m < runs.length → k + runsLength (runs.take m) < Config.P

theorem fitsPass_of_wholePass {runs : List (BitVec 7 × Bool)} (h : wholePass runs) : FitsPass 0 runs := by
  simpa [FitsPass] using ⟨h.1.le, h.2⟩

/-- Runs that do not reach `P` fit: the first of them are together no longer than all. -/
theorem fitsPass_of_lt {k : Nat} {runs : List (BitVec 7 × Bool)} (h : k + runsLength runs < Config.P) : FitsPass k runs :=
  ⟨h.le, fun m _ => by have := runsLength_take_le m runs; omega⟩

section
variable {k : Nat} {r : BitVec 7 × Bool} {runs : List (BitVec 7 × Bool)}

/-- The first run stays in the frame. -/
theorem FitsPass.head (h : FitsPass k (r :: runs)) : k + r.1.toNat ≤ Config.P := by
  have := h.1
  rw [runsLength_cons] at this
  omega

/-- The runs after the first fit from where it ends. -/
theorem FitsPass.tail (h : FitsPass k (r :: runs)) : FitsPass (k + r.1.toNat) runs := by
  obtain ⟨htotal, hbelow⟩ := h
  refine ⟨by rw [runsLength_cons] at htotal; omega, fun m hm => ?_⟩
  have := hbelow (m + 1) (Nat.succ_lt_succ hm)
  rw [List.take_succ_cons, runsLength_cons] at this
  omega

/-- A run that is not the last leaves the pass unfinished. -/
theorem FitsPass.head_lt (h : FitsPass k (r :: runs)) (hne : runs ≠ []) : k + r.1.toNat < Config.P := by
  simpa [runsLength] using h.2 1 (Nat.succ_lt_succ (List.length_pos_iff.2 hne))

/-! ### The run that covers a pixel -/

theorem inRun_cons_zero {i : Nat} : inRun (r :: runs) 0 i ↔ i < r.1.toNat := by
  simp [inRun]

theorem inRun_cons_succ {m i : Nat} : inRun (r :: runs) (m + 1) i ↔ r.1.toNat ≤ i ∧ inRun runs m (i - r.1.toNat) := by
  simp only [inRun, List.take_succ_cons, runsLength_cons]
  omega

/-- Every pixel of a list of runs lies in one of them. -/
theorem exists_inRun {i : Nat} (h : i < runsLength runs) : ∃ m r, runs[m]? = some r ∧ inRun runs m i := by
  induction runs generalizing i with
  | nil => exact absurd h (Nat.not_lt_zero i)
  | cons r runs ih =>
    by_cases hi : i < r.1.toNat
    · exact ⟨0, r, rfl, inRun_cons_zero.2 hi⟩
    · rw [runsLength_cons] at h
      obtain ⟨m, r', hr', hin⟩ := ih (i := i - r.1.toNat) (by omega)
      exact ⟨m + 1, r', hr', inRun_cons_succ.2 ⟨by omega, hin⟩⟩

end

/-! ### Several runs -/

/-- The application of several runs, one after the other; `runFor_applyRuns` says that these are the steps of R126. -/
def applyRuns : List (BitVec 7 × Bool) → State → State
  | [], s => s
  | r :: runs, s => applyRuns runs (runByte r.1 r.2 s)

theorem runByte_mode (n : BitVec 7) (v : Bool) (s : State) : (runByte n v s).mode = s.mode := by
  by_cases h : s.cursor.toNat + n.toNat ≤ Config.P
  · rw [runByte_frame h]
  · rw [runByte_overrun (by omega), raiseFault_mode]

/-- What runs that fit change: the frame buffer, the cursor, and at the end of the pass `PHASE` and `DONE`. -/
theorem applyRuns_frame {runs : List (BitVec 7 × Bool)} {s : State} (hlt : s.cursor.toNat < Config.P)
    (hfit : FitsPass s.cursor.toNat runs) :
    applyRuns runs s = { s with
      fb := (applyRuns runs s).fb
      cursor := BitVec.ofNat 13 (s.cursor.toNat + runsLength runs)
      phase := if s.cursor.toNat + runsLength runs = Config.P then .idle else s.phase
      done := if s.cursor.toNat + runsLength runs = Config.P then true else s.done } := by
  induction runs generalizing s with
  | nil => simp [applyRuns, hlt.ne]
  | cons r runs ih =>
    have hcursor := runByte_cursor (v := r.2) hfit.head
    by_cases hne : runs = []
    · subst hne
      rw [applyRuns, applyRuns, runsLength_cons, runsLength_nil, Nat.add_zero, runByte_frame hfit.head]
    · have hinside := hfit.head_lt hne
      obtain ⟨hphase, hdone⟩ := runByte_continues (v := r.2) hinside
      rw [applyRuns, ih (by omega) (hcursor ▸ hfit.tail), hcursor, hphase, hdone, Nat.add_assoc, ← runsLength_cons,
        runByte_changes hfit.head]

theorem applyRuns_cursor {runs : List (BitVec 7 × Bool)} {s : State} (hlt : s.cursor.toNat < Config.P)
    (hfit : FitsPass s.cursor.toNat runs) :
    (applyRuns runs s).cursor.toNat = s.cursor.toNat + runsLength runs := by
  rw [applyRuns_frame hlt hfit]
  exact cursor_toNat hfit.1

/-- The pixels outside the runs are left as they are. -/
theorem pixGet_applyRuns_outside {runs : List (BitVec 7 × Bool)} {s : State} (hfit : FitsPass s.cursor.toNat runs) {i : Nat}
    (hi : ¬ (s.cursor.toNat ≤ i ∧ i < s.cursor.toNat + runsLength runs)) :
    pixGet (applyRuns runs s) i = pixGet s i := by
  induction runs generalizing s with
  | nil => rfl
  | cons r runs ih =>
    have hcursor := runByte_cursor (v := r.2) hfit.head
    rw [runsLength_cons] at hi
    rw [applyRuns, ih (hcursor ▸ hfit.tail) (by omega), pixGet_runByte_outside hfit.head (by omega)]

/-- A pixel inside the runs is combined with the value of the run that covers it, and with no other. -/
theorem pixGet_applyRuns_inside {runs : List (BitVec 7 × Bool)} {s : State} (hfit : FitsPass s.cursor.toNat runs)
    {m i : Nat} {r : BitVec 7 × Bool} (hr : runs[m]? = some r) (hin : inRun runs m i) :
    pixGet (applyRuns runs s) (s.cursor.toNat + i) = newPixel (pixGet s (s.cursor.toNat + i)) r.2 s.mode := by
  induction runs generalizing s m i with
  | nil => cases hr
  | cons q runs ih =>
    have hcursor := runByte_cursor (v := q.2) hfit.head
    have htail : FitsPass (runByte q.1 q.2 s).cursor.toNat runs := hcursor ▸ hfit.tail
    cases m with
    | zero =>
      cases hr
      have hi := inRun_cons_zero.1 hin
      rw [applyRuns, pixGet_applyRuns_outside htail (by omega), pixGet_runByte_inside hfit.head (by omega)]
    | succ m =>
      obtain ⟨hle, hin⟩ := inRun_cons_succ.1 hin
      have hpixel := ih htail hr hin
      rw [hcursor, runByte_mode, show s.cursor.toNat + q.1.toNat + (i - q.1.toNat) = s.cursor.toNat + i by omega,
        pixGet_runByte_outside hfit.head (by omega)] at hpixel
      exact hpixel

/-! ### The steps of a pass -/

theorem runByte_setSource (n : BitVec 7) (v : Bool) (s : State) (src : Source) :
    runByte n v { s with source := src } = { runByte n v s with source := src } := by
  by_cases h : s.cursor.toNat + n.toNat ≤ Config.P
  · rw [runByte_frame h, runByte_frame (s := { s with source := src }) h]
    rw [spanWrite_fb_congr (s := s) (t := { s with source := src }) rfl rfl]
  · have hover : Config.P < s.cursor.toNat + n.toNat := Nat.lt_of_not_le h
    rw [runByte_overrun hover, runByte_overrun (s := { s with source := src }) hover]
    rfl

theorem applyRuns_setSource (runs : List (BitVec 7 × Bool)) (s : State) (src : Source) :
    applyRuns runs { s with source := src } = { applyRuns runs s with source := src } := by
  induction runs generalizing s with
  | nil => rfl
  | cons r runs ih => rw [applyRuns, applyRuns, runByte_setSource, ih]

/-- The scripted source answers with the next run byte, and the step applies its run. -/
theorem step_runByte_scripted {s : State} {r : BitVec 7 × Bool} {answers : List Answer} (hhost : s.host = .script [])
    (hp : s.phase = .run) (hsrc : s.source = .script (.byte (encodeRun r.1 r.2) :: answers)) :
    step s = .next { runByte r.1 r.2 s with source := .script answers } := by
  rw [step_runByte (coreTurnState_idleHost hhost) hp (by rw [hsrc, pull]), runLength_encodeRun, runValue_encodeRun,
    runByte_setSource]

/-- Runs that fit are applied in as many steps, and the source has given exactly their bytes. -/
theorem runFor_applyRuns {runs : List (BitVec 7 × Bool)} {rest : List Answer} {s : State} (hhost : s.host = .script [])
    (hp : s.phase = .run) (hfit : FitsPass s.cursor.toNat runs) (hsrc : s.source = .script (runAnswers runs ++ rest)) :
    runFor runs.length s = .next (applyRuns runs { s with source := .script rest }) := by
  induction runs generalizing s with
  | nil => rw [← show s.source = .script rest from hsrc]; rfl
  | cons r runs ih =>
    have hstep := step_runByte_scripted hhost hp hsrc
    rw [List.length_cons, runFor_step hstep, applyRuns, runByte_setSource r.1 r.2 s (.script rest)]
    by_cases hne : runs = []
    · subst hne; rfl
    · obtain ⟨hphase, -⟩ := runByte_continues (v := r.2) (hfit.head_lt hne)
      have hcursor := runByte_cursor (v := r.2) hfit.head
      have hhost' : (runByte r.1 r.2 s).host = .script [] := by rw [runByte_changes hfit.head]; exact hhost
      exact ih (s := { runByte r.1 r.2 s with source := .script (runAnswers runs ++ rest) }) hhost' (hphase.trans hp)
        (hcursor ▸ hfit.tail) rfl

/-- From the dispatch of a run opcode, runs that fit from pixel 0 take one step each after the one that begins the pass. -/
theorem runFor_pass {mode : Mode} {runs : List (BitVec 7 × Bool)} {rest : List Answer} {s : State}
    (hp : s.phase = .dispatch) (heffect : dispatchEffect s = beginPass mode s) (hhost : s.host = .script [])
    (hfit : FitsPass 0 runs) (hsrc : s.source = .script (runAnswers runs ++ rest)) :
    runFor (1 + runs.length) s = .next (applyRuns runs (beginPass mode { s with source := .script rest })) := by
  rw [runFor_one_add (step_dispatch (coreTurnState_idleHost hhost) hp), heffect]
  exact runFor_applyRuns (s := beginPass mode s) hhost rfl hfit hsrc

/-! ### A pass from pixel 0 -/

section
variable {runs : List (BitVec 7 × Bool)} {s : State} (mode : Mode)

theorem passRuns_cursor (hfit : FitsPass 0 runs) :
    (applyRuns runs (beginPass mode s)).cursor.toNat = runsLength runs :=
  (applyRuns_cursor (beginPass_cursor_lt mode s) hfit).trans (Nat.zero_add _)

/-- Runs that reach `P` end the frame. -/
theorem passRuns_whole (h : wholePass runs) :
    applyRuns runs (beginPass mode s) = { s with
      fb := (applyRuns runs (beginPass mode s)).fb
      cursor := (applyRuns runs (beginPass mode s)).cursor
      mode := mode
      phase := .idle
      done := true } := by
  have hend : (beginPass mode s).cursor.toNat + runsLength runs = Config.P := (Nat.zero_add _).trans h.1
  rw [applyRuns_frame (beginPass_cursor_lt mode s) (fitsPass_of_wholePass h), if_pos hend, if_pos hend]
  rfl

/-- Runs that stop before `P` leave the pass unfinished. -/
theorem passRuns_unfinished (h : runsLength runs < Config.P) :
    applyRuns runs (beginPass mode s) = { s with
      fb := (applyRuns runs (beginPass mode s)).fb
      cursor := (applyRuns runs (beginPass mode s)).cursor
      mode := mode
      phase := .run } := by
  have hend : (beginPass mode s).cursor.toNat + runsLength runs ≠ Config.P := ((Nat.zero_add _).trans_lt h).ne
  rw [applyRuns_frame (beginPass_cursor_lt mode s) (fitsPass_of_lt ((Nat.zero_add _).trans_lt h)), if_neg hend,
    if_neg hend]
  rfl

/-- Pixel `i` is combined with the value of the run that covers it. -/
theorem pixGet_passRuns (hfit : FitsPass 0 runs) {m i : Nat} {r : BitVec 7 × Bool} (hr : runs[m]? = some r)
    (hin : inRun runs m i) : pixGet (applyRuns runs (beginPass mode s)) i = newPixel (pixGet s i) r.2 mode := by
  have hpixel := pixGet_applyRuns_inside (s := beginPass mode s) hfit hr hin
  rwa [show (beginPass mode s).cursor.toNat + i = i from Nat.zero_add i, beginPass_mode,
    pixGet_congr (t := beginPass mode s) (s := s) rfl rfl] at hpixel

theorem pixGet_passRuns_beyond (hfit : FitsPass 0 runs) {i : Nat} (hi : runsLength runs ≤ i) :
    pixGet (applyRuns runs (beginPass mode s)) i = pixGet s i := by
  have houtside : ¬ ((beginPass mode s).cursor.toNat ≤ i ∧ i < (beginPass mode s).cursor.toNat + runsLength runs) := by
    rw [beginPass_cursor, BitVec.toNat_zero]; omega
  exact (pixGet_applyRuns_outside (s := beginPass mode s) hfit houtside).trans (pixGet_congr rfl rfl i)

end

/-- Settles O47: the dispatch begins the pass, whose runs cover every pixel and overwrite it with the value of its one
run. -/
theorem rleWholeFrame : Obligations.RleWholeFrame := by
  intro s runs rest hp hop hhost hwhole hsrc
  have hfit := fitsPass_of_wholePass hwhole
  refine ⟨_, runFor_pass hp (dispatchEffect_rle hop) hhost hfit hsrc, passRuns_whole .ovr hwhole,
    (passRuns_cursor .ovr hfit).trans hwhole.1, fun i hi => ?_⟩
  obtain ⟨m, r, hr, hin⟩ := exists_inRun (hi.trans_eq hwhole.1.symm)
  exact ⟨m, r, hr, hin, fun _ => inRun_unique hin, pixGet_passRuns .ovr hfit hr hin⟩

/-! ### A truncated pass (R132, 60_exceptions.md R175) -/

/-- The scripted source fails, and the step raises the fault. -/
theorem step_failedPull_scripted {s : State} {answers : List Answer} (hhost : s.host = .script []) (hp : s.phase = .run)
    (hsrc : s.source = .script (.fail :: answers)) :
    step s = .next (raiseFault .trunc { s with source := .script answers }) :=
  step_failedPull (coreTurnState_idleHost hhost) (srcReq_iff.2 (Or.inr hp)) (by rw [hsrc, pull])

/-- After runs that stop before `P` a failed pull is the fault. -/
theorem runFor_pass_failedPull {mode : Mode} {runs : List (BitVec 7 × Bool)} {rest : List Answer} {s : State}
    (hp : s.phase = .dispatch) (heffect : dispatchEffect s = beginPass mode s) (hhost : s.host = .script [])
    (hlt : runsLength runs < Config.P) (hsrc : s.source = .script (runAnswers runs ++ .fail :: rest)) :
    runFor (1 + runs.length + 1) s
      = .next (raiseFault .trunc (applyRuns runs (beginPass mode { s with source := .script rest }))) := by
  have hpass := runFor_pass hp heffect hhost (fitsPass_of_lt ((Nat.zero_add _).trans_lt hlt)) hsrc
  have hfault := step_failedPull_scripted
    (s := applyRuns runs (beginPass mode { s with source := .script (.fail :: rest) })) (answers := rest)
    (by rw [passRuns_unfinished mode hlt]; exact hhost) (by rw [passRuns_unfinished mode hlt])
    (by rw [passRuns_unfinished mode hlt])
  rw [runFor_add hpass 1, runFor_step hfault, runFor_zero, ← applyRuns_setSource]
  rfl

/-- Settles O49: the fault keeps the frame buffer and the cursor as the runs before it left them. -/
theorem truncatedPassKeepsItsPrefix : Obligations.TruncatedPassKeepsItsPrefix := by
  intro s runs rest hp hop hhost hlt hsrc
  have hfit : FitsPass 0 runs := fitsPass_of_lt ((Nat.zero_add _).trans_lt hlt)
  refine ⟨_, runFor_pass_failedPull hp (dispatchEffect_rle hop) hhost hlt hsrc, ?_, passRuns_cursor .ovr hfit,
    fun i hi => ?_, fun i hi => ?_⟩
  · rw [passRuns_unfinished .ovr hlt]; rfl
  · obtain ⟨m, r, hr, hin⟩ := exists_inRun hi
    exact ⟨m, r, hr, hin, (pixGet_congr rfl rfl i).trans (pixGet_passRuns .ovr hfit hr hin)⟩
  · exact (pixGet_congr rfl rfl i).trans (pixGet_passRuns_beyond .ovr hfit hi)

end Sys2Proof.Machine
end

section
/-! The delta run decoder (44_run_delta.md R135 to R141): the same span write as an overwrite run, in `XOR` mode. Its own
facts are that a delta applied twice is undone and that a pass exclusive-ors; what a run byte and a pass do in either mode
is the section on the overwrite run decoder. -/

namespace Sys2Proof.Machine

/-! ### Self-inverse (R139) -/

/-- The second exclusive-or with a value undoes the first. -/
theorem newPixel_xor_twice (old v : Bool) : newPixel (newPixel old v .xor) v .xor = old := by
  rw [newPixel, newPixel, Bool.xor_assoc, Bool.xor_self, Bool.xor_false]

/-- Pixel by pixel, a delta applied twice restores every pixel. -/
theorem pixGet_applySpan_xor_twice (k n : Nat) (v : Bool) (s : State) (i : Nat) :
    pixGet (applySpan k v .xor n (applySpan k v .xor n s)) i = pixGet s i := by
  rw [pixGet_applySpan, pixGet_applySpan]
  by_cases hi : k ≤ i ∧ i < k + n
  · rw [if_pos hi, if_pos hi, newPixel_xor_twice]
  · rw [if_neg hi, if_neg hi]

/-- Byte by byte, a delta applied twice restores every pixel, since each write leaves the pixels of the other form. -/
theorem pixGet_spanWrite_xor_twice (k n : Nat) (v : Bool) (s : State) (i : Nat) :
    pixGet (spanWrite k n v .xor (spanWrite k n v .xor s)) i = pixGet s i := by
  rw [pixGet_spanWrite_eq_applySpan, pixGet_applySpan, pixGet_spanWrite_eq_applySpan, ← pixGet_applySpan,
    pixGet_applySpan_xor_twice]

/-- Settles O12: equal pixels make equal bytes. -/
theorem deltaRunIsSelfInverse : Obligations.DeltaRunIsSelfInverse := fun k n v s _ =>
  ⟨fbRead_eq_of_pixels fun i _ _ => pixGet_applySpan_xor_twice k n v s i,
    fbRead_eq_of_pixels fun i _ _ => pixGet_spanWrite_xor_twice k n v s i⟩

/-! ### The dispatch of XRLE (R135) -/

theorem dispatchEffect_xrle {s : State} (hop : s.op = 0x03#8) : dispatchEffect s = beginPass .xor s := by
  simp [dispatchEffect, hop, classify]

/-- Settles O24: the meaning is the beginning of a pass, as of `RLE`, in the other mode. -/
theorem xrleDispatchBeginsPass : Obligations.XrleDispatchBeginsPass :=
  ⟨rfl, fun s hp =>
    ⟨beginPass .xor s, atDispatch_next.2 ⟨hp, rfl⟩, rfl, rfl, beginPass_cursor_lt .xor s, fbRead_congr rfl rfl⟩⟩

/-! ### One run byte (R136) -/

theorem decodeByte_runXor_encodeRun (n : BitVec 7) (v : Bool) : decodeByte .runXor (encodeRun n v) = .xrun n v := by
  rw [decodeByte, runLength_encodeRun, runValue_encodeRun]

/-- In an `XOR` pass each pixel of the run is exclusive-ored with its value. -/
theorem pixGet_runByte_xor {n : BitVec 7} {v : Bool} {s : State} (hm : s.mode = .xor)
    (h : s.cursor.toNat + n.toNat ≤ Config.P) {i : Nat} (hi : s.cursor.toNat ≤ i ∧ i < s.cursor.toNat + n.toNat) :
    pixGet (runByte n v s) i = (pixGet s i ^^ v) := by
  rw [pixGet_runByte_inside h hi, hm, newPixel]

/-- Settles O29: in an `XOR` pass the meaning is the application of the run, which is the fault past `P`. -/
theorem deltaRunInvertsPixels : Obligations.DeltaRunInvertsPixels := by
  refine ⟨fun n v => ⟨encodeRun_toNat n v, decodeByte_runXor_encodeRun n v⟩, fun n v s hp hm => ?_⟩
  have hexec : exec (.xrun n v) s = .next (runByte n v s) := inPass_next.2 ⟨⟨hp, hm⟩, rfl⟩
  refine ⟨fun hle => ?_, fun hover => by rw [hexec, runByte_overrun hover, raiseFault]⟩
  have hgoesOn (hlt : s.cursor.toNat + n.toNat < Config.P) :
      (runByte n v s).phase = .run ∧ (runByte n v s).done = s.done := hp ▸ runByte_continues hlt
  exact ⟨runByte n v s, hexec, runByte_changes hle, runByte_cursor hle, runByte_ends, hgoesOn,
    fun i hlo hhi => pixGet_runByte_xor hm hle ⟨hlo, hhi⟩, fun i hout => pixGet_runByte_outside hle hout,
    fun j => hm ▸ fbRead_runByte hle j, fun j hj => fbRead_runByte_outside hle hj⟩

/-! ### A whole frame (R141) -/

/-- Settles O48: the dispatch begins the pass, whose runs cover every pixel; the run that covers one is exclusive-ored
into it, and no other is. -/
theorem xrleWholeFrame : Obligations.XrleWholeFrame := by
  intro s runs rest hp hop hhost hwhole hsrc
  have hfit := fitsPass_of_wholePass hwhole
  refine ⟨_, runFor_pass hp (dispatchEffect_xrle hop) hhost hfit hsrc, passRuns_whole .xor hwhole,
    (passRuns_cursor .xor hfit).trans hwhole.1, fun i hi => ?_⟩
  obtain ⟨m, r, hr, hin⟩ := exists_inRun (hi.trans_eq hwhole.1.symm)
  exact ⟨m, r, hr, hin, pixGet_passRuns .xor hfit hr hin⟩

end Sys2Proof.Machine
end

section
/-! The fill operator (45_fill.md R145 to R147): the two dispatches that write one value to every byte of the frame buffer,
`CLR0` and `CLR1`. -/

namespace Sys2Proof.Machine

/-- The byte of a pixel below `P` is below `NB`, so the fill writes it, and the pixel is a bit of the fill value. -/
theorem pixGet_fbFill {i : Nat} (hi : i < Config.P) (v : Byte) (s : State) :
    pixGet (fbFill v s) i = v.getLsbD (7 - offset i) := by
  have hbyte : byteIndex i < Config.NB := by
    rw [P_value] at hi
    rw [NB_value, byteIndex]
    omega
  rw [pixGet, fbRead_fbFill hbyte]

/-- What `CLR0` and `CLR1` do alike: the frame ends, only the frame buffer is written, and each byte holds the fill value;
each pixel is `x` when each bit of that value is. -/
theorem atDispatch_frameEnd_fbFill {v : Byte} {x : Bool} (hv : ∀ p, p < 8 → v.getLsbD (7 - p) = x) {s : State}
    (hp : s.phase = .dispatch) :
    ∃ t, atDispatch s (frameEnd (fbFill v s)) = .next t ∧ t = { s with fb := t.fb, phase := .idle, done := true } ∧
      (∀ j, j < Config.NB → fbRead t j = v) ∧ ∀ i, i < Config.P → pixGet t i = x := by
  refine ⟨frameEnd (fbFill v s), atDispatch_next.2 ⟨hp, rfl⟩, rfl, fun j hj => ?_, fun i hi => ?_⟩
  · calc fbRead (frameEnd (fbFill v s)) j = fbRead (fbFill v s) j := fbRead_congr rfl rfl j
      _ = v := fbRead_fbFill hj v s
  · calc pixGet (frameEnd (fbFill v s)) i = pixGet (fbFill v s) i := pixGet_congr rfl rfl i
      _ = v.getLsbD (7 - offset i) := pixGet_fbFill hi v s
      _ = x := hv _ (offset_lt i)

/-- Settles O25: the meaning is the fill with `0x00`, whose eight bits are all 0, and the end of the frame. -/
theorem clr0ClearsEveryByte : Obligations.Clr0ClearsEveryByte :=
  ⟨rfl, fun _ => atDispatch_frameEnd_fbFill (by decide)⟩

/-- Settles O26: the meaning is the fill with `0xFF`, whose eight bits are all 1, and the end of the frame. -/
theorem clr1SetsEveryByte : Obligations.Clr1SetsEveryByte :=
  ⟨rfl, fun _ => atDispatch_frameEnd_fbFill (by decide)⟩

end Sys2Proof.Machine
end

section
/-! Waiting (46_bytesource_and_host.md R153, 60_exceptions.md R183) and the tick of the reference host (46 R155 to R158). -/

namespace Sys2Proof.Machine

/-! ### Waiting -/

/-- Idle, the CORE pulls nothing and does nothing (60 R183; log 14). -/
theorem coreTurn_idle {c : State} (hp : c.phase = .idle) : coreTurn c = .next c := by
  simp [coreTurn, State.srcReq, coreStep, hp]

/-- A pull without an answer leaves the CORE and the source as they are (46 R153; log 14). -/
theorem coreTurn_unanswered {c : State} (hreq : c.srcReq = true) (hpull : pull c.source = (none, c.source)) :
    coreTurn c = .next c :=
  coreTurn_payload hreq hpull

/-- Settles O19: the step is the CORE's turn, and neither an empty script nor an idle CORE gives it anything to do. -/
theorem waitingChangesNothing : Obligations.WaitingChangesNothing := fun _ _ hturn =>
  ⟨fun hreq hsrc => (step_coreTurn hturn).trans (coreTurn_unanswered hreq (by rw [hsrc]; rfl)),
    fun hidle => (step_coreTurn hturn).trans (coreTurn_idle hidle)⟩

/-! ### The pull of a stream -/

theorem pull_stream_byte {bytes : List Byte} {sp : Nat} {b : Byte} (h : bytes[sp]? = some b) :
    pull (.stream bytes sp) = (some (.byte b), .stream bytes (sp + 1)) := by
  simp [pull, h]

theorem pull_stream_end {bytes : List Byte} {sp : Nat} (h : bytes.length ≤ sp) :
    pull (.stream bytes sp) = (some .fail, .stream bytes sp) := by
  simp [pull, List.getElem?_eq_none h]

/-! ### The opcode read -/

/-- While the CORE is idle the step is the reference host's move (46 R156). -/
theorem step_reference_idle {s : State} {r : RefHost} (hhost : s.host = .reference r) (hidle : s.phase = .idle) :
    step s = .next (refMove r s) := by
  unfold step nextEvent
  rw [hhost]
  simp [State.busy, hidle]

theorem tickRead_byte {s : State} {src : Source} {op : Byte} (r : RefHost)
    (hpull : pull s.source = (some (.byte op), src)) :
    tickRead r s = startFrame op { s with source := src, host := .reference { r with tick := .waiting } } := by
  rw [tickRead, hpull]

theorem tickRead_fail {s : State} {src : Source} (r : RefHost) (hpull : pull s.source = (some .fail, src)) :
    tickRead r s = if r.loop then { s with source := rewind src }
      else { s with source := src, host := .reference { r with tick := .halted } } := by
  rw [tickRead, hpull]

/-- Settles O52: the step is the opcode read, and the pull of the stream gives the byte at `SP` or fails past the end. -/
theorem referenceHostReadsOpcode : Obligations.ReferenceHostReadsOpcode := by
  intro s r bytes sp hhost htick hidle hsource
  have hstep : step s = .next (tickRead r s) := by
    rw [step_reference_idle hhost hidle, refMove, htick]
  refine ⟨fun op hop => ?_, fun hend hloop => ?_, fun hend hloop => ?_⟩
  · have hpull : pull s.source = (some (.byte op), .stream bytes (sp + 1)) := hsource ▸ pull_stream_byte hop
    rw [hstep, tickRead_byte r hpull]
    rfl
  · have hpull : pull s.source = (some .fail, .stream bytes sp) := hsource ▸ pull_stream_end hend
    rw [hstep, tickRead_fail r hpull, if_pos hloop]
    rfl
  · have hpull : pull s.source = (some .fail, .stream bytes sp) := hsource ▸ pull_stream_end hend
    rw [hstep, tickRead_fail r hpull, if_neg (by simp [hloop]), ← hsource]

/-! ### The end of a tick -/

theorem tickEnd_done {s : State} (r : RefHost) (hd : s.done = true) (hf : s.fault = false) :
    tickEnd r s = { present s with host := .reference { r with tick := .readOp } } := by
  simp [tickEnd, hd, hf]

theorem tickEnd_halt {s : State} {r : RefHost} (hd : s.done = false) (hf : s.fault = true) (hon : r.onFault = .halt) :
    tickEnd r s = { s with host := .reference { r with tick := .halted } } := by
  simp [tickEnd, hd, hf, hon]

theorem tickEnd_restart {s : State} {r : RefHost} (hd : s.done = false) (hf : s.fault = true)
    (hon : r.onFault = .restart) :
    tickEnd r s = { s with source := rewind s.source, host := .reference { r with tick := .readOp } } := by
  simp [tickEnd, hd, hf, hon]

/-- The list handed to the display holds byte `j` of the frame buffer at place `j` (46 R165). -/
theorem presented_getElem? (s : State) {j : Nat} (hj : j < Config.NB) :
    ((List.range Config.NB).map (fbRead s))[j]? = some (fbRead s j) := by
  rw [List.getElem?_map, List.getElem?_range hj, Option.map_some]

/-- Settles O53: the step is the end of the tick, by `DONE`, `FAULT` and `HOST_ON_FAULT`. -/
theorem referenceHostEndsTick : Obligations.ReferenceHostEndsTick := by
  intro s r bytes sp hhost htick hidle hsource
  have hstep : step s = .next (tickEnd r s) := by
    rw [step_reference_idle hhost hidle, refMove, htick]
  refine ⟨fun hd hf => ?_, fun hd hf hon => ?_, fun hd hf hon => ?_⟩
  · exact ⟨_, hstep.trans (congrArg _ (tickEnd_done r hd hf)), fun j => presented_getElem? s⟩
  · rw [hstep, tickEnd_halt hd hf hon]
  · rw [hstep, tickEnd_restart hd hf hon, hsource]
    rfl

end Sys2Proof.Machine
end

section
/-! The ports at a clock edge (46_bytesource_and_host.md R159 to R163): the event of an edge by the phase of the CORE, and
what the frame buffer read port does beside it. -/

namespace Sys2Proof.Machine

/-! ### The event of an edge, by phase -/

/-- Idle, the edge takes a `START` that is offered (46 R159). -/
theorem edgeEvent_idle {s : State} (hidle : s.phase = .idle) (p : Pins) :
    edgeEvent p s = .next (if p.cmdValid then startFrame p.cmdOpcode s else s) :=
  if_pos (cmdReady_iff.2 hidle)

/-- In a payload the edge uses the answer on the byte source port, consumed from the source (46 R160; log 27). -/
theorem edgeEvent_payload {s : State} (hreq : s.srcReq = true) (p : Pins) :
    edgeEvent p s = payloadStep p.answer { s with source := consume p.answer s.source } := by
  rcases srcReq_iff.1 hreq with hp | hp
  · simp [edgeEvent, State.cmdReady, State.srcReq, coreStep, hp]
  · simp [edgeEvent, State.cmdReady, State.srcReq, coreStep, hp]

/-- At a dispatch the edge runs the decoded `OP` if the step completes at it (46 R163; log 18). -/
theorem edgeEvent_dispatch {s : State} (hp : s.phase = .dispatch) (p : Pins) :
    edgeEvent p s = if p.dispatchNow then exec (decodeByte .boundary s.op) s else .next s := by
  simp [edgeEvent, State.cmdReady, State.srcReq, coreStep, hp]

/-- While the CORE is busy the command port is not looked at (46 R159). -/
theorem edgeEvent_busy_cmd {s : State} (hbusy : s.phase ≠ .idle) (p : Pins) (valid : Bool) (op : Byte) :
    edgeEvent { p with cmdValid := valid, cmdOpcode := op } s = edgeEvent p s := by
  have hready : ¬ s.cmdReady = true := mt cmdReady_iff.1 hbusy
  rw [edgeEvent, edgeEvent, if_neg hready, if_neg hready]
  rfl

/-! ### What the answer on the byte source port consumes -/

theorem consume_fail (src : Source) : consume (some .fail) src = src := rfl

theorem consume_none (src : Source) : consume none src = src := rfl

theorem consume_byte {src rest : Source} {b : Byte} (d : Byte) (h : pull src = (some (.byte b), rest)) :
    consume (some (.byte d)) src = rest := by
  simp only [consume, h]

/-- A completed byte that the source has not got consumes nothing (log 27). -/
theorem consume_no_byte {src : Source} (d : Byte) (h : ∀ b rest, pull src ≠ (some (.byte b), rest)) :
    consume (some (.byte d)) src = src := by
  unfold consume
  split
  · rename_i b rest _ hpull
    exact absurd hpull (h b rest)
  · rfl

theorem answer_fail {p : Pins} (hfail : p.srcFail = true) : p.answer = some .fail := if_pos hfail

theorem answer_byte {p : Pins} (hfail : p.srcFail = false) (hvalid : p.srcValid = true) :
    p.answer = some (.byte p.srcData) := by
  simp [Pins.answer, hfail, hvalid]

theorem answer_none {p : Pins} (hfail : p.srcFail = false) (hvalid : p.srcValid = false) : p.answer = none := by
  simp [Pins.answer, hfail, hvalid]

/-- The instruction of a payload byte depends on the frame, not on the source (30_encoding.md R76). -/
theorem payloadStep_byte_setSource (b : Byte) (s : State) (src : Source) :
    payloadStep (some (.byte b)) { s with source := src }
      = exec (decodeByte (payloadContext s) b) { s with source := src } := rfl

/-- `src_fail` raises `FC_TRUNC` and consumes nothing (46 R160). -/
theorem edgeEvent_fail {s : State} {p : Pins} (hreq : s.srcReq = true) (hfail : p.srcFail = true) :
    edgeEvent p s = .next (raiseFault .trunc s) := by
  rw [edgeEvent_payload hreq, answer_fail hfail, consume_fail]
  rfl

/-- A completed byte is the instruction of its context, in the state that has consumed it (46 R160). -/
theorem edgeEvent_byte {s : State} {p : Pins} (hreq : s.srcReq = true) (hfail : p.srcFail = false)
    (hvalid : p.srcValid = true) :
    edgeEvent p s = exec (decodeByte (payloadContext s) p.srcData)
      { s with source := consume (some (.byte p.srcData)) s.source } := by
  rw [edgeEvent_payload hreq, answer_byte hfail hvalid, payloadStep_byte_setSource]

/-- A pull with neither answer waits (46 R153, R160). -/
theorem edgeEvent_unanswered {s : State} {p : Pins} (hreq : s.srcReq = true) (hfail : p.srcFail = false)
    (hvalid : p.srcValid = false) : edgeEvent p s = .next s := by
  rw [edgeEvent_payload hreq, answer_none hfail hvalid, consume_none]
  rfl

/-! ### The edge as a step -/

/-- A scripted clock edge is one step (46 R164; log 18). -/
theorem step_edge {s : State} {p : Pins} {moves : List HostMove} (h : s.host = .script (.edge p :: moves)) :
    step s = clockEdge p { s with host := .script moves } := by
  unfold step nextEvent
  rw [h]
  rfl

/-- An edge without reset and without a read answered is the event of its port, after the read port's request. -/
theorem clockEdge_unread {p : Pins} (hrst : p.rst = false) (hread : p.readNow = false) (s : State) :
    clockEdge p s = edgeEvent p (requestRead p s) := by
  unfold clockEdge
  rw [hrst, hread]
  cases edgeEvent p (requestRead p s) <;> rfl

theorem step_edge_unread {s : State} {p : Pins} {moves : List HostMove} (h : s.host = .script (.edge p :: moves))
    (hrst : p.rst = false) (hread : p.readNow = false) :
    step s = edgeEvent p (requestRead p { s with host := .script moves }) :=
  (step_edge h).trans (clockEdge_unread hrst hread _)

theorem step_setEdge_unread {p : Pins} (s : State) (moves : List HostMove) (hrst : p.rst = false)
    (hread : p.readNow = false) :
    step { s with host := .script (.edge p :: moves) } = edgeEvent p (requestRead p { s with host := .script moves }) :=
  step_edge_unread (s := { s with host := .script (.edge p :: moves) }) rfl hrst hread

/-- `cmd_valid` and `cmd_opcode` are without effect on the step of a busy CORE (46 R159). -/
theorem step_edge_busy_cmd {s : State} {p : Pins} {moves : List HostMove} (h : s.host = .script (.edge p :: moves))
    (hrst : p.rst = false) (hread : p.readNow = false) (hbusy : s.phase ≠ .idle) (valid : Bool) (op : Byte) :
    step s = step { s with host := .script (.edge { p with cmdValid := valid, cmdOpcode := op } :: moves) } := by
  rw [step_edge_unread h hrst hread,
    step_setEdge_unread (p := { p with cmdValid := valid, cmdOpcode := op }) s moves hrst hread]
  exact (edgeEvent_busy_cmd (s := requestRead p { s with host := .script moves }) hbusy p valid op).symm

/-- Settles O54: a reset discards the request just noted; otherwise the step is the event of the port, by phase. -/
theorem clockEdgeEvents : Obligations.ClockEdgeEvents := by
  intro s c p moves hhost hc
  replace hc : c = requestRead p { s with host := .script moves } := by
    rw [hc, requestRead_eq]
    rfl
  have hphase : c.phase = s.phase := by rw [hc]; rfl
  have hsource : c.source = s.source := by rw [hc]; rfl
  have hop : c.op = s.op := by rw [hc]; rfl
  have hsrcReq : c.srcReq = s.srcReq := by rw [hc]; rfl
  refine ⟨fun hrst => ?_, fun hrst hread => ?_⟩
  · rw [step_edge hhost, clockEdge, if_pos hrst, hc]
    rfl
  have hstep : step s = edgeEvent p c := hc ▸ step_edge_unread hhost hrst hread
  refine ⟨fun hidle hcmd => ?_, fun hidle hcmd => ?_, fun hbusy valid op => ?_, fun hreq hfail => ?_,
    fun hreq hfail hvalid => ⟨fun b rest hpull => ?_, fun hnone => ?_⟩, fun hreq hfail hvalid => ?_,
    fun hp hnow => ?_, fun hp hnow => ?_⟩
  · rw [hstep, edgeEvent_idle (hphase.trans hidle), if_pos hcmd]
  · rw [hstep, edgeEvent_idle (hphase.trans hidle), if_neg (by simp [hcmd])]
  · exact step_edge_busy_cmd hhost hrst hread hbusy valid op
  · rw [hstep, edgeEvent_fail (hsrcReq.trans hreq) hfail]
  · rw [hstep, edgeEvent_byte (hsrcReq.trans hreq) hfail hvalid, hsource, consume_byte _ hpull]
  · rw [hstep, edgeEvent_byte (hsrcReq.trans hreq) hfail hvalid, hsource, consume_no_byte _ hnone, ← hsource]
  · rw [hstep, edgeEvent_unanswered (hsrcReq.trans hreq) hfail hvalid]
  · rw [hstep, edgeEvent_dispatch (hphase.trans hp), if_pos hnow, hop]
  · rw [hstep, edgeEvent_dispatch (hphase.trans hp), if_neg (by simp [hnow])]

/-! ### The read port beside the event -/

/-- What the event of an edge does to the read port: an accepted `START` spoils the pending reads, an idle edge without
one does nothing at all, and a busy CORE does not touch the port. -/
theorem edgeEvent_port {p : Pins} {s u : State} (h : edgeEvent p s = .next u) :
    (s.phase = .idle ∧ p.cmdValid = true ∧ u = startFrame p.cmdOpcode s) ∨
    (s.phase = .idle ∧ p.cmdValid = false ∧ u = s) ∨
    (s.phase ≠ .idle ∧ u.pendingReads = s.pendingReads ∧ u.readOut = s.readOut) := by
  by_cases hidle : s.phase = .idle
  · rw [edgeEvent_idle hidle] at h
    cases hcmd : p.cmdValid <;> rw [hcmd] at h <;> cases h
    · exact Or.inr (Or.inl ⟨hidle, rfl, rfl⟩)
    · exact Or.inl ⟨hidle, rfl, rfl⟩
  · rw [edgeEvent, if_neg (mt cmdReady_iff.1 hidle)] at h
    refine Or.inr (Or.inr ⟨hidle, ?_⟩)
    split at h
    · exact coreStep_port (s := { s with source := consume p.answer s.source }) h
    · split at h
      · exact coreStep_port h
      · cases h
        exact ⟨rfl, rfl⟩

section
variable {p : Pins} {s u : State} (h : edgeEvent p s = .next u)
include h

theorem edgeEvent_readOut : u.readOut = s.readOut := by
  rcases edgeEvent_port h with ⟨-, -, rfl⟩ | ⟨-, -, rfl⟩ | ⟨-, -, hout⟩
  · rfl
  · rfl
  · exact hout

theorem edgeEvent_pendingReads_start (hidle : s.phase = .idle) (hcmd : p.cmdValid = true) :
    u.pendingReads = s.pendingReads.map PendingRead.spoil := by
  rcases edgeEvent_port h with ⟨-, -, rfl⟩ | ⟨-, hno, -⟩ | ⟨hbusy, -, -⟩
  · rfl
  · simp [hcmd] at hno
  · exact absurd hidle hbusy

theorem edgeEvent_pendingReads_keep (hno : s.phase ≠ .idle ∨ p.cmdValid = false) :
    u.pendingReads = s.pendingReads := by
  rcases edgeEvent_port h with ⟨hidle, hcmd, -⟩ | ⟨-, -, rfl⟩ | ⟨-, hpend, -⟩
  · simp [hidle, hcmd] at hno
  · rfl
  · exact hpend

/-- A lone read requested at this edge stays specified only if `BUSY` is 0 before and after it (46 R162). -/
theorem edgeEvent_pendingReads_request {a : BitVec 10} (hreq : s.pendingReads = [{ addr := a, stable := !s.busy }]) :
    u.pendingReads = [{ addr := a, stable := !s.busy && !u.busy }] := by
  rcases edgeEvent_port h with ⟨-, -, rfl⟩ | ⟨-, -, rfl⟩ | ⟨hbusy, hpend, -⟩
  · have hu : (startFrame p.cmdOpcode s).busy = true := rfl
    rw [startFrame_pendingReads, hreq, hu, Bool.not_true, Bool.and_false]
    rfl
  · rw [hreq, Bool.and_self]
  · have hs : s.busy = true := decide_eq_true hbusy
    rw [hpend, hreq, hs, Bool.not_true, Bool.false_and]

end

/-! ### The answer to the oldest pending read -/

theorem answerOldest_nil {s : State} (h : s.pendingReads = []) : answerOldest s = s := by
  rw [answerOldest, h]

theorem answerOldest_cons {s : State} {r : PendingRead} {rest : List PendingRead} (h : s.pendingReads = r :: rest) :
    answerOldest s = answerRead r.addr r.stable { s with pendingReads := rest } := by
  rw [answerOldest, h]

/-- Without a request the pending reads stay as they are. -/
theorem requestRead_pendingReads_off {p : Pins} (hren : p.fbRen = false) (s : State) :
    (requestRead p s).pendingReads = s.pendingReads := by
  simp [requestRead, hren]

theorem requestRead_pendingReads_first {p : Pins} {s : State} (hren : p.fbRen = true) (hnone : s.pendingReads = []) :
    (requestRead p s).pendingReads = [{ addr := p.fbRaddr, stable := !s.busy }] := by
  simp [requestRead, hren, hnone]

/-- Settles O55: the other events give `u` at either value of `readNow`, which alone decides whether the oldest pending read
of `u` is answered. -/
theorem clockEdgeReads : Obligations.ClockEdgeReads := by
  intro s u p moves hhost hrst hu
  have hedge : edgeEvent p (requestRead p { s with host := .script moves }) = .next u :=
    (step_setEdge_unread (p := { p with readNow := false }) s moves hrst rfl).symm.trans hu
  have hstep : step s = .next (if p.readNow then answerOldest u else u) :=
    (step_edge hhost).trans (clockEdge_of_edgeEvent hrst hedge)
  have hout : u.readOut = none := edgeEvent_readOut hedge
  refine ⟨hout, by rw [State.fbRvalid, hout]; rfl, fun hread => ?_, fun hread hnone => ?_,
    fun hread r rest hpend => ⟨fun hspec => ?_, fun hunspec => ?_⟩, fun hren hnone => ?_, fun hren hno => ?_,
    fun hren hidle hcmd => ?_⟩
  · rw [hstep, if_neg (by simp [hread])]
  · rw [hstep, if_pos hread, answerOldest_nil hnone]
  · obtain ⟨hstable, hlt⟩ := hspec
    rw [hstep, if_pos hread, answerOldest_cons hpend, hstable, answerRead_specified hlt]
    rfl
  · have hor : r.stable = false ∨ Config.NB ≤ r.addr.toNat := by
      rw [← Bool.not_eq_true, ← Nat.not_lt]
      exact not_and_or.1 hunspec
    rw [hstep, if_pos hread, answerOldest_cons hpend, answerRead_unspecified hor]
  · exact edgeEvent_pendingReads_request hedge (requestRead_pendingReads_first hren hnone)
  · exact (edgeEvent_pendingReads_keep hedge hno).trans (requestRead_pendingReads_off hren _)
  · rw [edgeEvent_pendingReads_start hedge hidle hcmd, requestRead_pendingReads_off hren]

end Sys2Proof.Machine
end

section
/-! The exceptions (60_exceptions.md R172 to R181): the two faults apply nothing of what raised them, a payload byte steers
nothing, and every fault leaves its mark in `SF`. -/

namespace Sys2Proof.Machine

/-! ### The two faults (R172, R173) -/

/-- Settles O31: the pulled run byte is applied, and past `P` its application is the fault alone. -/
theorem overrunFaultsWithoutEffect : Obligations.OverrunFaultsWithoutEffect := by
  intro s c rb src hturn hp hpull hover
  rw [step_runByte hturn hp hpull, runByte_overrun (s := { c with source := src }) hover, raiseFault]

/-- A failed pull consumes nothing of a stream (46_bytesource_and_host.md R155). -/
theorem source_of_failedPull_stream {bytes : List Byte} {sp : Nat} {src : Source}
    (h : pull (.stream bytes sp) = (some .fail, src)) : src = .stream bytes sp := by
  cases hb : bytes[sp]? with
  | some b =>
    rw [pull_stream_byte hb] at h
    cases h
  | none =>
    rw [pull_stream_end (List.getElem?_eq_none_iff.1 hb)] at h
    cases h
    rfl

/-- Settles O32: the step is the fault, in the state in which the source has given its failure. -/
theorem failedPullFaultsWithoutEffect : Obligations.FailedPullFaultsWithoutEffect := by
  intro s c src hturn hreq hpull
  exact ⟨step_failedPull hturn hreq hpull, fun _ _ hsrc => source_of_failedPull_stream (hsrc ▸ hpull)⟩

/-! ### What a payload byte can do (R181) -/

/-- From `s` to `t` the frame goes on, ends normally (40_dispatcher.md R94) or ends with a fault (R174). -/
def FrameOutcome (s t : State) : Prop :=
  t.phase = s.phase ∧ t.done = s.done ∧ t.fault = s.fault ∧ t.sf = s.sf ∧ t.fcode = s.fcode ∨
  t.phase = .idle ∧ t.done = true ∧ t.fault = s.fault ∧ t.sf = s.sf ∧ t.fcode = s.fcode ∨
  t.phase = .idle ∧ t.done = s.done ∧ t.fault = true ∧ t.sf = true ∧ t.fcode ≠ .noFault

/-- All that a payload step may change: the frame buffer, the two positions in it, the source, and what `FrameOutcome`
speaks of. -/
structure PayloadEffect (s t : State) : Prop where
  frame : t = { s with
    fb := t.fb, cursor := t.cursor, ridx := t.ridx, phase := t.phase, done := t.done, fault := t.fault, sf := t.sf,
    fcode := t.fcode, source := t.source }
  outcome : FrameOutcome s t

theorem payloadEffect_refl (s : State) : PayloadEffect s s :=
  ⟨rfl, Or.inl ⟨rfl, rfl, rfl, rfl, rfl⟩⟩

theorem payloadEffect_raiseFault {code : FaultCode} (hcode : code ≠ .noFault) (s : State) :
    PayloadEffect s (raiseFault code s) :=
  ⟨rfl, Or.inr (Or.inr ⟨rfl, rfl, rfl, rfl, hcode⟩)⟩

/-- A payload byte that is applied ends the frame if it is the last one, and touches no other flag. -/
theorem payloadEffect_of_applied {s t : State} (last : Prop) [Decidable last]
    (h : t = { s with
      fb := t.fb, cursor := t.cursor, ridx := t.ridx, phase := if last then .idle else s.phase,
      done := if last then true else s.done }) : PayloadEffect s t := by
  refine ⟨by rw [h], ?_⟩
  rw [h]
  by_cases hlast : last
  · exact Or.inr (Or.inl ⟨if_pos hlast, if_pos hlast, rfl, rfl, rfl⟩)
  · exact Or.inl ⟨if_neg hlast, if_neg hlast, rfl, rfl, rfl⟩

theorem payloadEffect_copyByte (d : Byte) (s : State) : PayloadEffect s (copyByte d s) :=
  payloadEffect_of_applied (s.ridx.toNat + 1 = Config.NB) (by rw [copyByte_frame])

theorem payloadEffect_runByte (n : BitVec 7) (v : Bool) (s : State) : PayloadEffect s (runByte n v s) := by
  by_cases hle : s.cursor.toNat + n.toNat ≤ Config.P
  · exact payloadEffect_of_applied (s.cursor.toNat + n.toNat = Config.P) (by rw [runByte_frame hle])
  · rw [runByte_overrun (by omega)]
    exact payloadEffect_raiseFault (by decide) s

theorem coreStep_payloadEffect {a : Option Answer} {s t : State} (hreq : s.srcReq = true)
    (h : coreStep a s = .next t) : PayloadEffect s t := by
  rcases coreStep_payload hreq h with rfl | rfl | ⟨d, -, rfl⟩ | ⟨n, v, -, rfl⟩
  · exact payloadEffect_refl t
  · exact payloadEffect_raiseFault (by decide) s
  · exact payloadEffect_copyByte d s
  · exact payloadEffect_runByte n v s

/-- The pull moves the source alone, which `PayloadEffect` leaves open. -/
theorem coreTurn_payloadEffect {s t : State} (hreq : s.srcReq = true) (h : coreTurn s = .next t) :
    PayloadEffect s t := by
  rw [coreTurn, if_pos hreq] at h
  obtain ⟨hframe, houtcome⟩ := coreStep_payloadEffect (s := { s with source := (pull s.source).2 }) hreq h
  exact ⟨hframe, houtcome⟩

/-- Settles O44: the step is the CORE's turn, and `PayloadEffect` names all that it may change. -/
theorem payloadCannotSteer : Obligations.PayloadCannotSteer := by
  intro s c t hturn hreq hstep
  obtain ⟨hframe, houtcome⟩ := coreTurn_payloadEffect hreq ((step_coreTurn hturn).symm.trans hstep)
  refine ⟨?_, ?_, ?_, ?_, ?_, ?_, ?_, ?_, ?_, houtcome⟩ <;> rw [hframe]

/-! ### The sticky fault flag (R180) -/

/-- From `s` to `t`, `SF` is cleared by a reset only, and set where `FAULT` is raised. -/
def FaultMarksStick (s t : State) : Prop :=
  (s.sf = true → t.sf = false → t.fbEpoch = s.fbEpoch + 1) ∧ (s.fault = false → t.fault = true → t.sf = true)

theorem faultMarksStick_of_eq {s t : State} (hsf : t.sf = s.sf) (hfault : t.fault = s.fault) : FaultMarksStick s t :=
  ⟨fun hset hclear => absurd (hsf.trans hset) (by simp [hclear]),
    fun hclear hset => absurd (hfault.trans hclear) (by simp [hset])⟩

/-- Where the frame goes on or ends normally both flags stay; where it ends with a fault both are set. -/
theorem FrameOutcome.faultMarksStick {s t : State} (h : FrameOutcome s t) : FaultMarksStick s t := by
  rcases h with ⟨-, -, hfault, hsf, -⟩ | ⟨-, -, hfault, hsf, -⟩ | ⟨-, -, -, hsf, -⟩
  · exact faultMarksStick_of_eq hsf hfault
  · exact faultMarksStick_of_eq hsf hfault
  · exact ⟨fun _ hclear => absurd hsf (by simp [hclear]), fun _ _ => hsf⟩

/-- No opcode raises a fault at its dispatch, nor clears one (R170). -/
theorem dispatchEffect_fault_sf (s : State) :
    (dispatchEffect s).fault = s.fault ∧ (dispatchEffect s).sf = s.sf := by
  rcases dispatchEffect_cases s with ⟨-, he⟩ | ⟨-, he⟩ | ⟨-, he⟩ | ⟨-, he⟩ | ⟨-, he⟩ | ⟨-, he⟩ | ⟨-, he⟩ <;> simp [he]

theorem CoreEvent.faultMarksStick {s u : State} (he : CoreEvent s u) : FaultMarksStick s u := by
  cases he with
  | quiet => exact faultMarksStick_of_eq rfl rfl
  | start _ op => exact ⟨fun hset hclear => absurd (show s.sf = false from hclear) (by simp [hset]), fun _ h => nomatch h⟩
  | reset => exact ⟨fun _ _ => rfl, fun _ h => nomatch h⟩
  | dispatch _ =>
    obtain ⟨hfault, hsf⟩ := dispatchEffect_fault_sf s
    exact faultMarksStick_of_eq hsf hfault
  | trunc _ => exact (payloadEffect_raiseFault (by decide) s).outcome.faultMarksStick
  | copy _ _ d => exact (payloadEffect_copyByte d s).outcome.faultMarksStick
  | run _ n v => exact (payloadEffect_runByte n v s).outcome.faultMarksStick

/-- Settles O42: by the event of the step. -/
theorem stickyFaultFlag : Obligations.StickyFaultFlag := by
  intro s t hstep
  obtain ⟨u, hu, hut⟩ := step_event hstep
  obtain ⟨-, -, -, -, -, -, -, hfault, -, hsf, -, hepoch⟩ := hut.fields
  rw [hfault, hsf, hepoch]
  exact hu.faultMarksStick

end Sys2Proof.Machine
end

section
/-! Reset and the hazards of a run pass (70_reset_and_hazards.md R190, R191, R195). -/

namespace Sys2Proof.Machine

/-! ### Zero-length runs alone (R195) -/

/-- Settles O50, by induction on the zero-length bytes: each of them leaves the CORE where O30 has it, in the pass and below
`P`, and so before the next one. -/
theorem zeroLengthRunsNeverEndAPass : Obligations.ZeroLengthRunsNeverEndAPass := by
  intro s zeros rest hp hlt hhost hzeros hsrc
  induction zeros generalizing s with
  | nil => exact ⟨s, rfl, by rw [← show s.source = .script rest from hsrc], fun _ => rfl⟩
  | cons b zeros ih =>
    obtain ⟨hb, htail⟩ := List.forall_mem_cons.1 hzeros
    have hpull : pull s.source = (some (.byte b), .script (zeros.map .byte ++ rest)) := by rw [hsrc]; rfl
    obtain ⟨t, hstep, hframe, hread⟩ := zeroLengthRunChangesNothing.2 s s b _ (coreTurnState_idleHost hhost) hp hlt hpull
      ((runLength_eq_zero_iff b).2 hb)
    obtain ⟨u, hrun, hrest, hreads⟩ := ih t (by rw [hframe]; exact hp) (by rw [hframe]; exact hlt)
      (by rw [hframe]; exact hhost) htail (by rw [hframe])
    exact ⟨u, (runFor_step hstep _).trans hrun, by rw [hrest, hframe], fun j => (hreads j).trans (hread j)⟩

/-! ### The event RESET (R190, R191) -/

/-- A scripted `RESET` is one step (46_bytesource_and_host.md R164). -/
theorem step_reset {s : State} {moves : List HostMove} (h : s.host = .script (.reset :: moves)) :
    step s = .next (resetEvent { s with host := .script moves }) := by
  unfold step nextEvent
  rw [h]
  rfl

@[simp] theorem withdrawPull_script (epoch : Nat) (answers : List Answer) :
    withdrawPull epoch (.script answers) = .script answers := rfl

/-- Whether the byte of the withdrawn pull had been consumed is a free choice (log 26). -/
theorem withdrawPull_stream (epoch : Nat) (bytes : List Byte) (sp : Nat) :
    withdrawPull epoch (.stream bytes sp) = .stream bytes sp ∨
    withdrawPull epoch (.stream bytes sp) = .stream bytes (sp + 1) := by
  simp only [withdrawPull]
  split
  · exact Or.inr rfl
  · exact Or.inl rfl

theorem resetEvent_status (s : State) : (resetEvent s).status = 0x00#8 := by
  have hbusy : (resetEvent s).busy = false := rfl
  rw [State.status, hbusy, resetEvent_fcode, resetEvent_sf, resetEvent_unk, resetEvent_fault, resetEvent_done]
  decide

/-- With no pull outstanding a reset leaves the source alone. -/
theorem resetEvent_source_idle {s : State} (h : s.srcReq = false) : (resetEvent s).source = s.source := by
  simp [h]

theorem resetEvent_source_script {s : State} {answers : List Answer} (h : s.source = .script answers) :
    (resetEvent s).source = s.source := by
  simp [h]

theorem resetEvent_source_stream {s : State} {bytes : List Byte} {sp : Nat} (h : s.source = .stream bytes sp) :
    (resetEvent s).source = s.source ∨ (resetEvent s).source = .stream bytes (sp + 1) := by
  rw [resetEvent_source, h]
  split
  · exact withdrawPull_stream _ bytes sp
  · exact Or.inl rfl

/-- Settles O14: the step is `resetEvent`, which lists no byte of the frame buffer and moves the source by a withdrawn pull
alone. -/
theorem resetEventInAnyState : Obligations.ResetEvent := fun s moves hhost =>
  let start : State := { s with host := .script moves }
  ⟨resetEvent start, step_reset hhost, rfl, resetEvent_status start, rfl, rfl, fun _ => rfl,
    resetEvent_source_idle (s := start), fun _ => resetEvent_source_script (s := start),
    fun _ _ => resetEvent_source_stream (s := start)⟩

end Sys2Proof.Machine
end
